-- ==== Sys2Proof/Word.lean ====
section
/-!
DEFINITION. The words of the CHIP-8 CORE (spec/00_scope.md R4, R5): all values are unsigned, bit 0 is the
least significant bit.
-/

namespace Sys2Proof

/-- The value of a general register, of a timer and of a memory cell: 8 bits (R4). -/
abbrev Byte := BitVec 8

/-- The value of `I`, of `PC` and of a call-stack entry, and an instruction word: 16 bits (R4). -/
abbrev Word := BitVec 16

/-- The index of a general register, a 4-bit instruction field, so always 0 to 15 (R20, R71). -/
abbrev RegIx := BitVec 4

/-- The 12-bit address constant `nnn` of an instruction (R71). -/
abbrev Addr12 := BitVec 12

/-- A logical key code 0x0 to 0xF: the key port is 4 bits wide (R215). -/
abbrev KeyCode := BitVec 4

/-- A positive integer, as the parameters `STACK_DEPTH` and `TICKS_PER_UPDATE` are (R4). -/
abbrev Positive := { n : Nat // 0 < n }

end Sys2Proof
end

