-- ==== Sys2Proof/Config.lean ====
section
/-!
DEFINITION. What an implementation fixes (spec/00_scope.md R4) and the one free value of the model: the byte
that the random port yields (spec/60_exceptions.md R216).
-/

namespace Sys2Proof.Config

/-- `MEM_SIZE`: addresses 0x000 to 0xFFF (R4, R27). -/
def memSize : Nat := 4096

/-- `PROGRAM_BASE`: the load address of a program image and the reset value of `PC` (R4, R240). -/
def programBase : Nat := 0x200

/-- `FONT_BASE`: the address of glyph 0 (R4, R64). -/
def fontBase : Nat := 0x000

/-- `GLYPH_STRIDE`: the bytes of one glyph (R4). -/
def glyphStride : Nat := 5

/-- The longest program image: `MEM_SIZE - PROGRAM_BASE` = 3584 bytes (R4, R242). -/
def maxImage : Nat := memSize - programBase

/-- The default of the parameter `STACK_DEPTH` (R4, the spec's decision D9). The machine's depth is the field
`stackDepth` of State, which starts at this value (DESIGN CHOICE, log entry 5). -/
def stackDepthDefault : Positive := ⟨16, by decide⟩

/-- `DISPLAY_W` (R4, R28). -/
def displayW : Nat := 64

/-- `DISPLAY_H` (R4, R28). -/
def displayH : Nat := 32

/-- FREE VALUE: the byte of the k-th draw from the random port that the host has not already supplied
(R113, R216, U9: 'a fresh free 8-bit input per execution'). It has no body, so whatever is proved holds for
every draw (log entry 19). -/
opaque rngByte : Nat → Byte

end Sys2Proof.Config
end

