-- ==== Sys2Proof/Syntax.lean ====
section
/-!
DEFINITION. The 34 instruction kinds of spec/30_encoding.md R76, one constructor for each row of
spec/opcode_table.json, in the table's order. An operand is the instruction field of R71 at its own width, so
that a register index is in [0, 15] by construction (spec/10_state.md R20, R34 (b)).
-/

namespace Sys2Proof

/-- One instruction: its kind and the fields its format uses (R72, R73). -/
inductive Instr where
  | cls                                            -- 00E0  CLS
  | ret                                            -- 00EE  RET
  | jp (nnn : Addr12)                              -- 1nnn  JP nnn
  | call (nnn : Addr12)                            -- 2nnn  CALL nnn
  | seImm (x : RegIx) (nn : Byte)                  -- 3xnn  SE Vx, nn
  | sneImm (x : RegIx) (nn : Byte)                 -- 4xnn  SNE Vx, nn
  | seReg (x y : RegIx)                            -- 5xy0  SE Vx, Vy
  | ldImm (x : RegIx) (nn : Byte)                  -- 6xnn  LD Vx, nn
  | addImm (x : RegIx) (nn : Byte)                 -- 7xnn  ADD Vx, nn
  | ldReg (x y : RegIx)                            -- 8xy0  LD Vx, Vy
  | orReg (x y : RegIx)                            -- 8xy1  OR Vx, Vy
  | andReg (x y : RegIx)                           -- 8xy2  AND Vx, Vy
  | xorReg (x y : RegIx)                           -- 8xy3  XOR Vx, Vy
  | addReg (x y : RegIx)                           -- 8xy4  ADD Vx, Vy
  | subReg (x y : RegIx)                           -- 8xy5  SUB Vx, Vy
  | shr (x y : RegIx)                              -- 8xy6  SHR Vx, Vy
  | subn (x y : RegIx)                             -- 8xy7  SUBN Vx, Vy
  | shl (x y : RegIx)                              -- 8xyE  SHL Vx, Vy
  | sneReg (x y : RegIx)                           -- 9xy0  SNE Vx, Vy
  | ldI (nnn : Addr12)                             -- Annn  LD I, nnn
  | jpV0 (nnn : Addr12)                            -- Bnnn  JP V0, nnn
  | rnd (x : RegIx) (nn : Byte)                    -- Cxnn  RND Vx, nn
  | drw (x y : RegIx) (n : BitVec 4)               -- Dxyn  DRW Vx, Vy, n
  | skp (x : RegIx)                                -- Ex9E  SKP Vx
  | sknp (x : RegIx)                               -- ExA1  SKNP Vx
  | ldVxDT (x : RegIx)                             -- Fx07  LD Vx, DT
  | ldVxK (x : RegIx)                              -- Fx0A  LD Vx, K
  | ldDTVx (x : RegIx)                             -- Fx15  LD DT, Vx
  | ldSTVx (x : RegIx)                             -- Fx18  LD ST, Vx
  | addI (x : RegIx)                               -- Fx1E  ADD I, Vx
  | ldF (x : RegIx)                                -- Fx29  LD F, Vx
  | ldB (x : RegIx)                                -- Fx33  LD B, Vx
  | saveRegs (x : RegIx)                           -- Fx55  LD [I], Vx
  | restoreRegs (x : RegIx)                        -- Fx65  LD Vx, [I]
  deriving DecidableEq, Repr

end Sys2Proof
end

