-- ==== Sys2Proof/WellFormed.lean ====
section
/-!
DEFINITION. What makes a program image and an instruction well formed. An instruction's fields have the widths
of spec/30_encoding.md R71, so every term of `Instr` is well formed by construction; the one check that can
fail is the length of a program image (spec/70_reset_and_hazards.md R242).
-/

namespace Sys2Proof

/-- Every instruction is well formed: R34 (b), 'register indices always in [0,15]', and the widths of `nn`,
`nnn` and `n` hold by construction of the operand types. -/
def Instr.wf (_ : Instr) : Bool := true

/-- A program image that `Reset` accepts: at most 3584 bytes (R242, the spec's decision D22). -/
def imageWf (image : List Byte) : Bool := decide (image.length ≤ Config.maxImage)

end Sys2Proof
end

