-- ==== Sys2Proof/Decode.lean ====
section
/-!
DEFINITION. The decoder of spec/30_encoding.md R71 to R79, total on any bytes, and after it the encoder of R80.
The numbers of the opcode map are those of R75 and R76 (UNVERIFIED: the spec's decision D2, log entry 1).
-/

namespace Sys2Proof

/-- Why a decoder refuses. -/
inductive Reject where
  /-- The word matches no row of R76 ('Unmatched encodings yield INVALID', R78). -/
  | invalidInstruction (w : Word)
  /-- Fewer than two bytes were given: an instruction is one 16-bit word (R70). -/
  | truncated
  deriving DecidableEq, Repr

/-! Fields (R71). -/

/-- The top nibble, `w[15:12]`. -/
def fieldOp (w : Word) : BitVec 4 := w.extractLsb' 12 4
/-- Register A, `w[11:8]`. -/
def fieldX (w : Word) : RegIx := w.extractLsb' 8 4
/-- Register B, `w[7:4]`. -/
def fieldY (w : Word) : RegIx := w.extractLsb' 4 4
/-- The nibble immediate, `w[3:0]`. -/
def fieldN (w : Word) : BitVec 4 := w.extractLsb' 0 4
/-- The short immediate, `w[7:0]`. -/
def fieldNN (w : Word) : Byte := w.extractLsb' 0 8
/-- The address, `w[11:0]`. -/
def fieldNNN (w : Word) : Addr12 := w.extractLsb' 0 12

/-! The decoded instruction (R72, R73). -/

/-- The kind of an instruction: one of the 34 rows of R76, or INVALID (R73). -/
inductive Kind where
  | cls | ret | jp | call | seImm | sneImm | seReg | ldImm | addImm | ldReg | orReg | andReg | xorReg
  | addReg | subReg | shr | subn | shl | sneReg | ldI | jpV0 | rnd | drw | skp | sknp | ldVxDT | ldVxK
  | ldDTVx | ldSTVx | addI | ldF | ldB | saveRegs | restoreRegs | invalid
  deriving DecidableEq, Repr

/-- The six formats (R72): which fields an instruction uses. -/
inductive Format where
  | fixed | nnn | xnn | xy | xyn | x
  deriving DecidableEq, Repr

/-- What `Decode(w)` returns: `(kind, x, y, imm)` (R73). -/
structure Decoded where
  /-- The kind, or INVALID. -/
  kind : Kind
  /-- Operand register A, `w[11:8]`, whether the kind uses it or not. -/
  x : RegIx
  /-- Operand register B, `w[7:4]`, whether the kind uses it or not. -/
  y : RegIx
  /-- The 16-bit immediate/address container. -/
  imm : Word
  deriving DecidableEq, Repr

/-- The format of a kind (R72, R76); INVALID has none. -/
def formatOf : Kind → Option Format
  | .cls | .ret => some .fixed
  | .jp | .call | .ldI | .jpV0 => some .nnn
  | .seImm | .sneImm | .ldImm | .addImm | .rnd => some .xnn
  | .seReg | .ldReg | .orReg | .andReg | .xorReg | .addReg | .subReg | .shr | .subn | .shl
  | .sneReg => some .xy
  | .drw => some .xyn
  | .skp | .sknp | .ldVxDT | .ldVxK | .ldDTVx | .ldSTVx | .addI | .ldF | .ldB | .saveRegs
  | .restoreRegs => some .x
  | .invalid => none

/-- The 16-bit container of the field that a format uses, zero-extended; 0 where it uses none (R73). -/
def immOf (f : Option Format) (w : Word) : Word :=
  match f with
  | some .nnn => (fieldNNN w).setWidth 16
  | some .xnn => (fieldNN w).setWidth 16
  | some .xyn => (fieldN w).setWidth 16
  | some .fixed | some .xy | some .x | none => 0x0000#16

/-! Dispatch (R75). -/

/-- Group 0x0: the exact words of `CLS` and `RET` (R75, the spec's decisions D1 and D3, log entry 17). -/
def kindGroup0 (nnn : Addr12) : Kind :=
  if nnn = 0x0E0#12 then .cls else if nnn = 0x0EE#12 then .ret else .invalid

/-- Group 0x8: the low nibble selects (R75). -/
def kindGroup8 (n : BitVec 4) : Kind :=
  match n with
  | 0x0#4 => .ldReg
  | 0x1#4 => .orReg
  | 0x2#4 => .andReg
  | 0x3#4 => .xorReg
  | 0x4#4 => .addReg
  | 0x5#4 => .subReg
  | 0x6#4 => .shr
  | 0x7#4 => .subn
  | 0xE#4 => .shl
  | _ => .invalid

/-- Group 0xE: the low byte selects (R75). -/
def kindGroupE (nn : Byte) : Kind :=
  match nn with
  | 0x9E#8 => .skp
  | 0xA1#8 => .sknp
  | _ => .invalid

/-- Group 0xF: the low byte selects (R75). -/
def kindGroupF (nn : Byte) : Kind :=
  match nn with
  | 0x07#8 => .ldVxDT
  | 0x0A#8 => .ldVxK
  | 0x15#8 => .ldDTVx
  | 0x18#8 => .ldSTVx
  | 0x1E#8 => .addI
  | 0x29#8 => .ldF
  | 0x33#8 => .ldB
  | 0x55#8 => .saveRegs
  | 0x65#8 => .restoreRegs
  | _ => .invalid

/-- The kind of a word: the top nibble selects the group (R75). Total: each of the 65536 words has exactly one kind,
INVALID included (R73, R78). -/
def kindOf (w : Word) : Kind :=
  match fieldOp w with
  | 0x0#4 => kindGroup0 (fieldNNN w)
  | 0x1#4 => .jp
  | 0x2#4 => .call
  | 0x3#4 => .seImm
  | 0x4#4 => .sneImm
  | 0x5#4 => if fieldN w = 0#4 then .seReg else .invalid
  | 0x6#4 => .ldImm
  | 0x7#4 => .addImm
  | 0x8#4 => kindGroup8 (fieldN w)
  | 0x9#4 => if fieldN w = 0#4 then .sneReg else .invalid
  | 0xA#4 => .ldI
  | 0xB#4 => .jpV0
  | 0xC#4 => .rnd
  | 0xD#4 => .drw
  | 0xE#4 => kindGroupE (fieldNN w)
  | _ => kindGroupF (fieldNN w)  -- 0xF, the one nibble left

/-- `Decode(w)` (R73, R75): `x` and `y` always extracted, `imm` the container of the format's field. -/
def decodeRecord (w : Word) : Decoded :=
  { kind := kindOf w, x := fieldX w, y := fieldY w, imm := immOf (formatOf (kindOf w)) w }

/-- The instruction of a record: its kind with the fields its format uses, an immediate taken back out of its
container at the field's own width; none for INVALID. -/
def instrOf (d : Decoded) : Option Instr :=
  match d.kind with
  | .cls => some .cls
  | .ret => some .ret
  | .jp => some (.jp (d.imm.setWidth 12))
  | .call => some (.call (d.imm.setWidth 12))
  | .seImm => some (.seImm d.x (d.imm.setWidth 8))
  | .sneImm => some (.sneImm d.x (d.imm.setWidth 8))
  | .seReg => some (.seReg d.x d.y)
  | .ldImm => some (.ldImm d.x (d.imm.setWidth 8))
  | .addImm => some (.addImm d.x (d.imm.setWidth 8))
  | .ldReg => some (.ldReg d.x d.y)
  | .orReg => some (.orReg d.x d.y)
  | .andReg => some (.andReg d.x d.y)
  | .xorReg => some (.xorReg d.x d.y)
  | .addReg => some (.addReg d.x d.y)
  | .subReg => some (.subReg d.x d.y)
  | .shr => some (.shr d.x d.y)
  | .subn => some (.subn d.x d.y)
  | .shl => some (.shl d.x d.y)
  | .sneReg => some (.sneReg d.x d.y)
  | .ldI => some (.ldI (d.imm.setWidth 12))
  | .jpV0 => some (.jpV0 (d.imm.setWidth 12))
  | .rnd => some (.rnd d.x (d.imm.setWidth 8))
  | .drw => some (.drw d.x d.y (d.imm.setWidth 4))
  | .skp => some (.skp d.x)
  | .sknp => some (.sknp d.x)
  | .ldVxDT => some (.ldVxDT d.x)
  | .ldVxK => some (.ldVxK d.x)
  | .ldDTVx => some (.ldDTVx d.x)
  | .ldSTVx => some (.ldSTVx d.x)
  | .addI => some (.addI d.x)
  | .ldF => some (.ldF d.x)
  | .ldB => some (.ldB d.x)
  | .saveRegs => some (.saveRegs d.x)
  | .restoreRegs => some (.restoreRegs d.x)
  | .invalid => none

/-- The instruction that a word decodes to, or the refusal of an INVALID word by its name (R78). -/
def decodeWord (w : Word) : Except Reject Instr :=
  match instrOf (decodeRecord w) with
  | some i => .ok i
  | none => .error (.invalidInstruction w)

/-- The 16-bit word of two bytes: the byte at the lower address is `w[15:8]` (spec/20_memory.md R54; UNVERIFIED:
the spec's decision D5, log entry 2). -/
def wordOfBytes (hi lo : Byte) : Word := hi ++ lo

/-- The high byte of a word, the one at the lower address (R54). -/
def highByte (w : Word) : Byte := w.extractLsb' 8 8

/-- The low byte of a word (R54). -/
def lowByte (w : Word) : Byte := w.extractLsb' 0 8

/-- The decoder on a run of bytes: one instruction and the bytes after it. -/
def decode : List Byte → Except Reject (Instr × List Byte)
  | hi :: lo :: rest =>
    match decodeWord (wordOfBytes hi lo) with
    | .ok i => .ok (i, rest)
    | .error e => .error e
  | _ => .error .truncated

/-- `Encode` (R80): the row's match with the fields its format uses, one nibble column of R72 after another. -/
def encode : Instr → Word
  | .cls => 0x00E0#16
  | .ret => 0x00EE#16
  | .jp nnn => 0x1#4 ++ nnn
  | .call nnn => 0x2#4 ++ nnn
  | .seImm x nn => 0x3#4 ++ x ++ nn
  | .sneImm x nn => 0x4#4 ++ x ++ nn
  | .seReg x y => 0x5#4 ++ x ++ y ++ 0x0#4
  | .ldImm x nn => 0x6#4 ++ x ++ nn
  | .addImm x nn => 0x7#4 ++ x ++ nn
  | .ldReg x y => 0x8#4 ++ x ++ y ++ 0x0#4
  | .orReg x y => 0x8#4 ++ x ++ y ++ 0x1#4
  | .andReg x y => 0x8#4 ++ x ++ y ++ 0x2#4
  | .xorReg x y => 0x8#4 ++ x ++ y ++ 0x3#4
  | .addReg x y => 0x8#4 ++ x ++ y ++ 0x4#4
  | .subReg x y => 0x8#4 ++ x ++ y ++ 0x5#4
  | .shr x y => 0x8#4 ++ x ++ y ++ 0x6#4
  | .subn x y => 0x8#4 ++ x ++ y ++ 0x7#4
  | .shl x y => 0x8#4 ++ x ++ y ++ 0xE#4
  | .sneReg x y => 0x9#4 ++ x ++ y ++ 0x0#4
  | .ldI nnn => 0xA#4 ++ nnn
  | .jpV0 nnn => 0xB#4 ++ nnn
  | .rnd x nn => 0xC#4 ++ x ++ nn
  | .drw x y n => 0xD#4 ++ x ++ y ++ n
  | .skp x => 0xE#4 ++ x ++ 0x9E#8
  | .sknp x => 0xE#4 ++ x ++ 0xA1#8
  | .ldVxDT x => 0xF#4 ++ x ++ 0x07#8
  | .ldVxK x => 0xF#4 ++ x ++ 0x0A#8
  | .ldDTVx x => 0xF#4 ++ x ++ 0x15#8
  | .ldSTVx x => 0xF#4 ++ x ++ 0x18#8
  | .addI x => 0xF#4 ++ x ++ 0x1E#8
  | .ldF x => 0xF#4 ++ x ++ 0x29#8
  | .ldB x => 0xF#4 ++ x ++ 0x33#8
  | .saveRegs x => 0xF#4 ++ x ++ 0x55#8
  | .restoreRegs x => 0xF#4 ++ x ++ 0x65#8

/-- The two bytes of an instruction as memory holds them, lowest address first (R54). -/
def encodeBytes (i : Instr) : List Byte := [highByte (encode i), lowByte (encode i)]

/-- The instruction whose bits are `w` as spec/opcode_table.json numbers them: every row is one 16-bit word, bit
0 its least significant bit; the bits at and above `nbits` are 0. The word is laid out as the hardware stores it,
high byte first, and given to the decoder. -/
def decodeTableWord (nbits w : Nat) : Option Instr :=
  let word := BitVec.ofNat 16 (w % 2 ^ nbits)
  match decode [highByte word, lowByte word] with
  | .ok (i, _) => some i
  | .error _ => none

end Sys2Proof
end

