-- ==== Sys2Proof/Machine/State.lean ====
section
/-!
DEFINITION. The state of the machine (spec/10_state.md R20 to R33) as plain data, the faults and refusals, the
five transitions (spec/00_scope.md R7) and the state after reset (R35).
-/

namespace Sys2Proof.Machine

/-- The sub-cause of an `ADDRESS_FAULT` (spec/60_exceptions.md R204). -/
inductive AddressCause where
  /-- `PC` is odd when `Step` begins (R55). -/
  | fetchMisaligned
  /-- `PC` is above 0xFFE when `Step` begins (R54). -/
  | fetchBounds
  /-- A data range passes 0xFFF (R53). -/
  | dataBounds
  deriving DecidableEq, Repr

/-- The result tags other than SUCCESS, with the information recorded (R200). All of them are taken as the spec
describes (R206): a next state whose `fault` field holds the tag; the outcome `fault` of the host interface
is never answered (log entry 7). -/
inductive Fault where
  /-- Raised by `CALL nnn` with the call stack at capacity (R202). Safe: the spec gives the entry. -/
  | stackOverflow (nnn : Addr12)
  /-- Raised by `RET` with the call stack empty (R203). Safe: the spec gives the entry. -/
  | stackUnderflow
  /-- Raised by `Step` when the decoder matches no row (R201). Safe: the spec gives the entry. -/
  | invalidInstruction (w : Word)
  /-- Raised by the fetch and by the four memory instructions (R204). Safe: the spec's decisions D7 and D8 err
  toward a fault where the original may run on (log entry 8). -/
  | addressFault (cause : AddressCause) (addr : Word)
  deriving DecidableEq, Repr

/-- What the model answers with no next state. -/
inductive Refusal where
  /-- An instruction without a meaning, named by its mnemonic: no arm of `exec` answers it any more. Safe. -/
  | notModelled (mnemonic : String)
  /-- The transition `Reset` with an image longer than 3584 bytes: 'no machine state results' (R242, the spec's
  decision D22, log entry 18). Safe. -/
  | oversizedImage (length : Nat)
  deriving DecidableEq, Repr

/-- The five transitions of the state (spec/00_scope.md R7). -/
inductive Transition where
  /-- `Step`: the core runs one instruction (spec/41_control.md R130). -/
  | coreStep
  /-- `TimerTick`: both timers count down once (spec/60_exceptions.md R211). -/
  | timerTick
  /-- `KeyRelease(k)` (R215). -/
  | keyRelease (k : KeyCode)
  /-- `KeysHeld(s)` (R214). -/
  | keysHeld (held : BitVec 16)
  /-- `Reset(image)` (spec/70_reset_and_hazards.md R240). -/
  | reset (image : List Byte)
  deriving DecidableEq, Repr

/-- `MEM` (spec/10_state.md R27): the cells that differ from what they hold after `Reset` of an empty image, by
rising address; an address not listed reads as its reset byte (`initialByte`, Machine/Ops.lean). -/
abbrev Memory := List Host.Cell

/-- `DISP[y][x]` (R28): 32 rows of 64 pixels, row 0 on top, column 0 on the left (spec/44_display.md R190). -/
abbrev Display := Vector (Vector Bool 64) 32

/-- Everything the spec gives the machine (R33), then the ports, the parameter and the schedule that the model
holds as plain data. -/
structure State where
  /-- `V[0]` to `V[15]` (R20); `V[15]` is `VF` (R21). -/
  v : Vector Byte 16
  /-- The index register `I` (R22). -/
  i : Word
  /-- The program counter `PC` (R23). -/
  pc : Word
  /-- The delay timer `DT` (R24). -/
  dt : Byte
  /-- The sound timer `ST` (R25). -/
  st : Byte
  /-- `STACK[0]` to `STACK[SP-1]`, `STACK[0]` first; `SP` is the length (R26, D33, log entry 6). -/
  stack : List Word
  /-- `MEM` (R27). -/
  mem : Memory
  /-- `DISP` (R28). -/
  disp : Display
  /-- `WAIT`, the waiting-for-key flag (R29). -/
  wait : Bool
  /-- `KEY`, the last released key, or `none` (R29). -/
  key : Option KeyCode
  /-- `FAULT`, the first result tag that was not SUCCESS, or `none` (R30). -/
  fault : Option Fault
  /-- The level present on the input port `KEYS_HELD`: bit `k` is 1 while key `k` is held (R31; the model's own
  field, log entry 20). -/
  keysHeld : BitVec 16
  /-- The bytes that the host has already supplied on the random port, oldest first (R31; the model's own field,
  log entry 19). -/
  rngQueue : List Byte
  /-- How many free bytes have been drawn (the model's own field, log entry 19). -/
  draws : Nat
  /-- The parameter `STACK_DEPTH` (spec/00_scope.md R4; a positive integer; the model's own
  field, log entry 5): no transition changes it. -/
  stackDepth : Positive
  /-- The transitions that come next, in order; when there is none the core moves (R7, spec/60_exceptions.md R221;
  the model's own field, log entry 21). -/
  schedule : List Transition
  deriving DecidableEq, Repr

/-- The state after `Reset` of an empty image (R35). The values of `keysHeld`, `rngQueue`, `draws`, `stackDepth` and
`schedule` are the model's (DESIGN CHOICE, log entries 19 to 21 and 5). -/
def State.reset : State where
  v := Vector.replicate 16 0x00#8
  i := 0x0000#16
  pc := 0x0200#16
  dt := 0x00#8
  st := 0x00#8
  stack := []
  mem := []
  disp := Vector.replicate 32 (Vector.replicate 64 false)
  wait := false
  key := none
  fault := none
  keysHeld := 0x0000#16
  rngQueue := []
  draws := 0
  stackDepth := Config.stackDepthDefault
  schedule := []

end Sys2Proof.Machine
end

