-- ==== Sys2Proof/Machine/Ops.lean ====
section
/-!
DEFINITION. The named operations over memory, registers, the call stack and the display, and the entry into a
fault (spec/60_exceptions.md R206). There is no return from a fault (R208): the only exit from the halted state
is `Reset` (Machine/Environment.lean).
-/

namespace Sys2Proof.Machine

/-! ## The font and the reset contents of memory -/

/-- The 80 bytes of the digit font, top row of each glyph first (spec/20_memory.md R64; UNVERIFIED: the spec's
decision D14, log entry 3). -/
def font : List Byte :=
  [0xF0, 0x90, 0x90, 0x90, 0xF0] ++ [0x20, 0x60, 0x20, 0x20, 0x70] ++
  [0xF0, 0x10, 0xF0, 0x80, 0xF0] ++ [0xF0, 0x10, 0xF0, 0x10, 0xF0] ++
  [0x90, 0x90, 0xF0, 0x10, 0x10] ++ [0xF0, 0x80, 0xF0, 0x10, 0xF0] ++
  [0xF0, 0x80, 0xF0, 0x90, 0xF0] ++ [0xF0, 0x10, 0x20, 0x40, 0x40] ++
  [0xF0, 0x90, 0xF0, 0x90, 0xF0] ++ [0xF0, 0x90, 0xF0, 0x10, 0xF0] ++
  [0xF0, 0x90, 0xF0, 0x90, 0x90] ++ [0xE0, 0x90, 0xE0, 0x90, 0xE0] ++
  [0xF0, 0x80, 0x80, 0x80, 0xF0] ++ [0xE0, 0x90, 0x90, 0x90, 0xE0] ++
  [0xF0, 0x80, 0xF0, 0x80, 0xF0] ++ [0xF0, 0x80, 0xF0, 0x80, 0x80]

/-- What an address that is not listed reads as: the font at 0x000 to 0x04F, 0x00 elsewhere (R35; the zero fill is
the spec's decision D21, log entry 4). -/
def initialByte (a : Nat) : Byte :=
  if Config.fontBase ≤ a then font.getD (a - Config.fontBase) 0x00#8 else 0x00#8

/-! ## Memory as a list in one canonical form -/

/-- The canonical form: addresses strictly rising and inside memory, no cell equal to what its address reads as
when it is not listed. -/
abbrev Memory.wf (m : Memory) : Prop :=
  m.Pairwise (fun c d => c.1 < d.1) ∧ ∀ c ∈ m, c.1 < Config.memSize ∧ c.2 ≠ initialByte c.1

/-- The byte at address `a`. -/
def Memory.read : Memory → Nat → Byte
  | [], a => initialByte a
  | c :: rest, a => if c.1 = a then c.2 else Memory.read rest a

/-- The list with the cell `(a, b)` in its place. -/
def Memory.insert : Memory → Nat → Byte → Memory
  | [], a, b => [(a, b)]
  | c :: rest, a, b =>
    if a < c.1 then (a, b) :: c :: rest
    else if a = c.1 then (a, b) :: rest
    else c :: Memory.insert rest a b

/-- The list without a cell for `a`. -/
def Memory.erase (m : Memory) (a : Nat) : Memory := m.filter (fun c => c.1 != a)

/-- Store `b` at `a`, keeping the canonical form. Every instruction checks its range before its first access (R53), so
no store above 0xFFF is ever asked for; the operation would drop one (log entry 24). -/
def Memory.write (m : Memory) (a : Nat) (b : Byte) : Memory :=
  if a < Config.memSize then
    if b = initialByte a then m.erase a else m.insert a b
  else m

/-- `MemRead(a, 1)` (R52). -/
def State.readByte (s : State) (a : Nat) : Byte := s.mem.read a

/-- `MemWrite(a, 1, b)` (R52). -/
def State.writeByte (s : State) (a : Nat) (b : Byte) : State := { s with mem := s.mem.write a b }

/-- Store the bytes one after another at ascending addresses from `a` (R52). -/
def State.writeBytes (s : State) (a : Nat) : List Byte → State
  | [] => s
  | b :: rest => State.writeBytes (s.writeByte a b) (a + 1) rest

/-! ## Registers -/

/-- `V[r]` (spec/10_state.md R20: no register is hard-wired). -/
def State.reg (s : State) (r : RegIx) : Byte := s.v[r.toNat]'r.isLt

/-- `V[r] <- b`. -/
def State.setReg (s : State) (r : RegIx) (b : Byte) : State := { s with v := s.v.set r.toNat b r.isLt }

/-- `I <- a`. -/
def State.setI (s : State) (a : Word) : State := { s with i := a }

/-- `PC <- a`. -/
def State.setPc (s : State) (a : Word) : State := { s with pc := a }

/-- `DT <- b`. -/
def State.setDt (s : State) (b : Byte) : State := { s with dt := b }

/-- `ST <- b`. -/
def State.setSt (s : State) (b : Byte) : State := { s with st := b }

/-- `WAIT <- w; KEY <- k`. -/
def State.setWaitKey (s : State) (w : Bool) (k : Option KeyCode) : State := { s with wait := w, key := k }

/-- `DISP <- d`. -/
def State.setDisp (s : State) (d : Display) : State := { s with disp := d }

/-- `PC <- PC + 2` (spec/41_control.md R130, R139). -/
def State.advancePc (s : State) : State := s.setPc (s.pc + 2#16)

/-! ## The call stack -/

/-- `SP`, the number of valid entries (spec/10_state.md R26). -/
def State.sp (s : State) : Nat := s.stack.length

/-- `STACK <- l`. -/
def State.setStack (s : State) (l : List Word) : State := { s with stack := l }

/-- `STACK[SP] <- a; SP <- SP + 1` (R26). -/
def State.push (s : State) (a : Word) : State := s.setStack (s.stack ++ [a])

/-! ## The display -/

/-- `DISP[y][x]`; off outside the surface (spec/44_display.md R190). -/
def Display.pixel (d : Display) (x y : Nat) : Bool :=
  if h : x < 64 ∧ y < 32 then (d[y]'h.2)[x]'h.1 else false

/-- `DISP[y][x] <- on`. -/
def Display.setPixel (d : Display) (x y : Nat) (on : Bool) : Display :=
  if h : x < 64 ∧ y < 32 then d.set y ((d[y]'h.2).set x on h.1) h.2 else d

/-- Every pixel off. -/
def Display.blank : Display := Vector.replicate 32 (Vector.replicate 64 false)

/-- `DISP[y][x]` of a state. -/
def State.pixel (s : State) (x y : Nat) : Bool := Display.pixel s.disp x y

/-! ## Faults -/

/-- `FAULT <- f`. -/
def State.setFault (s : State) (f : Fault) : State := { s with fault := some f }

/-- `raise f`: the entry into a fault (spec/60_exceptions.md R206). `FAULT` gets the tag; nothing is saved, no mode
changes, control goes nowhere. `s` is the state in which nothing but the advance of `PC` has happened, or, for a
fetch fault, nothing at all. -/
def raise (f : Fault) (s : State) : Host.Outcome State Fault Refusal := .next (s.setFault f)

end Sys2Proof.Machine
end

