-- ==== Sys2Proof/Machine/Flags.lean ====
section
/-!
DEFINITION. The arithmetic of spec/40_alu.md R101 and the flag computations of spec/10_state.md R21. Results are
computed exactly and then narrowed.
-/

namespace Sys2Proof.Machine

/-- The index of `VF`, the flag register (R21). -/
def flagReg : RegIx := 0xF#4

/-- The flag's value: always 0x00 or 0x01 (R21). -/
def flagByte (c : Bool) : Byte := if c then 0x01#8 else 0x00#8

/-- `VF <- 1 if c else 0` (R21). -/
def State.setFlag (s : State) (c : Bool) : State := s.setReg flagReg (flagByte c)

/-- The result goes to `V[x]`, then the flag to `VF` (R100; UNVERIFIED: the spec's decision D12, log entry 9). -/
def State.setResultThenFlag (s : State) (x : RegIx) (result : Byte) (c : Bool) : State :=
  (s.setReg x result).setFlag c

/-- `trunc_8(a + b)` (R101). -/
def add8 (a b : Byte) : Byte := BitVec.ofNat 8 (a.toNat + b.toNat)

/-- The carry: the 9-bit sum exceeds 255 (R101, R108). -/
def carry (a b : Byte) : Bool := decide (255 < a.toNat + b.toNat)

/-- `trunc_8(a - b)`: `a - b` when `a >= b`, else `a - b + 256` (R101). -/
def sub8 (a b : Byte) : Byte :=
  if b.toNat ≤ a.toNat then BitVec.ofNat 8 (a.toNat - b.toNat)
  else BitVec.ofNat 8 (a.toNat + 256 - b.toNat)

/-- No borrow: the minuend is at least the subtrahend (R101, R109). -/
def noBorrow (a b : Byte) : Bool := decide (b.toNat ≤ a.toNat)

/-- `b >> 1` (R110). -/
def shiftRight8 (b : Byte) : Byte := BitVec.ofNat 8 (b.toNat / 2)

/-- Bit 0, the bit that a right shift shifts out (R110). -/
def shiftedOutLow (b : Byte) : Bool := b.getLsbD 0

/-- `trunc_8(b << 1)` (R112). -/
def shiftLeft8 (b : Byte) : Byte := BitVec.ofNat 8 (b.toNat * 2)

/-- Bit 7, the bit that a left shift shifts out (R112). -/
def shiftedOutHigh (b : Byte) : Bool := b.getLsbD 7

end Sys2Proof.Machine
end

