-- ==== Sys2Proof/Machine/Operands.lean ====
section
/-!
DEFINITION. Operand forms: immediates (spec/30_encoding.md R74), the one data addressing mode
(spec/43_index_memory.md R176) with its bounds check (spec/20_memory.md R53), the held-key query
(spec/42_timers_keys.md R156) and the random-byte port (spec/60_exceptions.md R216).
-/

namespace Sys2Proof.Machine

/-- `zext_16(nnn)` (R74). -/
def zextAddr (nnn : Addr12) : Word := nnn.setWidth 16

/-- `zext_16(b)` of a byte. -/
def zextByte (b : Byte) : Word := b.setWidth 16

/-- `EA(k) = I + k`, an unbounded integer (R176). -/
def State.ea (s : State) (k : Nat) : Nat := s.i.toNat + k

/-- The lowest out-of-range address of a data range that starts at `I` and passes 0xFFF: `max(I, 0x1000)` (R204). -/
def lowestOutOfRange (base : Word) : Word := if base.toNat < Config.memSize then 0x1000#16 else base

/-- The check of a data range of `len` bytes from `I`, made before the first access (R53). An empty range is never out
of bounds. -/
def State.dataFault? (s : State) (len : Nat) : Option Fault :=
  if 0 < len ∧ Config.memSize ≤ s.ea (len - 1) then
    some (.addressFault .dataBounds (lowestOutOfRange s.i))
  else none

/-- An instruction with a data range of `len` bytes from `I`: `ADDRESS_FAULT` with no effect when a byte of it is
out of range, else the effect (R53; UNVERIFIED: the spec's decision D8, log entry 8). -/
def withDataRange (len : Nat) (effect : State → State) (s : State) : Host.Outcome State Fault Refusal :=
  match s.dataFault? len with
  | some f => raise f s
  | none => .next (effect s)

/-- `KeyHeld(v)` (R156): a value above 0x0F names no key (the spec's decision D16, log entry 11). -/
def State.keyHeld (s : State) (b : Byte) : Bool :=
  if b.toNat ≤ 0x0F then s.keysHeld.getLsbD b.toNat else false

/-- `RngByte()`: the next byte the host has supplied, else a free value (R216; log entry 19). -/
def State.rngByte (s : State) : Byte :=
  match s.rngQueue with
  | b :: _ => b
  | [] => Config.rngByte s.draws

/-- The port after one draw: the byte is used up, so that each draw is a fresh one (R216). -/
def State.afterDraw (s : State) : State :=
  match s.rngQueue with
  | _ :: rest => { s with rngQueue := rest }
  | [] => { s with draws := s.draws + 1 }

/-- A skip: `if c then PC <- PC + 2` on the advanced `PC` (spec/41_control.md R139). The skipped word is not looked
at. -/
def State.skipIf (s : State) (c : Bool) : State := if c then s.advancePc else s

end Sys2Proof.Machine
end

