-- ==== Sys2Proof/Machine/Alu.lean ====
section
/-!
DEFINITION. The twelve instructions of spec/40_alu.md. All of them fall through: `PC` has been advanced by `Step`
and is not touched here. Operands are read before anything is written (R100).
-/

namespace Sys2Proof.Machine

/-- `LD Vx, nn` (R102; UNVERIFIED: D13, log entry 10). -/
def execLdImm (x : RegIx) (nn : Byte) (s : State) : Host.Outcome State Fault Refusal :=
  .next (s.setReg x nn)

/-- `ADD Vx, nn`, no flag (R103; UNVERIFIED: D13, log entry 10). -/
def execAddImm (x : RegIx) (nn : Byte) (s : State) : Host.Outcome State Fault Refusal :=
  .next (s.setReg x (add8 (s.reg x) nn))

/-- `LD Vx, Vy` (R104; UNVERIFIED: D13, log entry 10). -/
def execLdReg (x y : RegIx) (s : State) : Host.Outcome State Fault Refusal :=
  .next (s.setReg x (s.reg y))

/-- `OR Vx, Vy`, no flag (R105). -/
def execOrReg (x y : RegIx) (s : State) : Host.Outcome State Fault Refusal :=
  .next (s.setReg x (s.reg x ||| s.reg y))

/-- `AND Vx, Vy`, no flag (R106). -/
def execAndReg (x y : RegIx) (s : State) : Host.Outcome State Fault Refusal :=
  .next (s.setReg x (s.reg x &&& s.reg y))

/-- `XOR Vx, Vy`, no flag (R107). -/
def execXorReg (x y : RegIx) (s : State) : Host.Outcome State Fault Refusal :=
  .next (s.setReg x (s.reg x ^^^ s.reg y))

/-- `ADD Vx, Vy`: the sum, then the carry into `VF` (R108). -/
def execAddReg (x y : RegIx) (s : State) : Host.Outcome State Fault Refusal :=
  .next (s.setResultThenFlag x (add8 (s.reg x) (s.reg y)) (carry (s.reg x) (s.reg y)))

/-- `SUB Vx, Vy`: `Vx - Vy`, then no-borrow into `VF` (R109). -/
def execSubReg (x y : RegIx) (s : State) : Host.Outcome State Fault Refusal :=
  .next (s.setResultThenFlag x (sub8 (s.reg x) (s.reg y)) (noBorrow (s.reg x) (s.reg y)))

/-- `SHR Vx, Vy`: `Vy >> 1`, then the bit shifted out into `VF` (R110). -/
def execShr (x y : RegIx) (s : State) : Host.Outcome State Fault Refusal :=
  .next (s.setResultThenFlag x (shiftRight8 (s.reg y)) (shiftedOutLow (s.reg y)))

/-- `SUBN Vx, Vy`: `Vy - Vx`, then no-borrow into `VF` (R111). -/
def execSubn (x y : RegIx) (s : State) : Host.Outcome State Fault Refusal :=
  .next (s.setResultThenFlag x (sub8 (s.reg y) (s.reg x)) (noBorrow (s.reg y) (s.reg x)))

/-- `SHL Vx, Vy`: `Vy << 1` cut to 8 bits, then the bit shifted out into `VF` (R112). -/
def execShl (x y : RegIx) (s : State) : Host.Outcome State Fault Refusal :=
  .next (s.setResultThenFlag x (shiftLeft8 (s.reg y)) (shiftedOutHigh (s.reg y)))

/-- `RND Vx, nn`: one fresh draw under the mask (R113; log entry 19). -/
def execRnd (x : RegIx) (nn : Byte) (s : State) : Host.Outcome State Fault Refusal :=
  .next (s.afterDraw.setReg x (s.rngByte &&& nn))

end Sys2Proof.Machine
end

