-- ==== Sys2Proof/Machine/Control.lean ====
section
/-!
DEFINITION. The eight control-transfer instructions of spec/41_control.md. `PC` is the advanced value, the address
of the next sequential instruction (R130). A target is not aligned, masked or checked here (R139).
-/

namespace Sys2Proof.Machine

/-- `JP nnn` (R131). -/
def execJp (nnn : Addr12) (s : State) : Host.Outcome State Fault Refusal :=
  .next (s.setPc (zextAddr nnn))

/-- `JP V0, nnn`: the 16-bit sum, not cut to 12 bits (R134; UNVERIFIED: D27, log entry 15). -/
def execJpV0 (nnn : Addr12) (s : State) : Host.Outcome State Fault Refusal :=
  .next (s.setPc (zextAddr nnn + zextByte (s.reg 0#4)))

/-- `CALL nnn`: pushes the advanced `PC`, or `STACK_OVERFLOW` at capacity (R132, spec/60_exceptions.md R202). -/
def execCall (nnn : Addr12) (s : State) : Host.Outcome State Fault Refusal :=
  if s.stackDepth.val ≤ s.sp then raise (.stackOverflow nnn) s
  else .next ((s.push s.pc).setPc (zextAddr nnn))

/-- `RET`: `PC` gets exactly the popped value, or `STACK_UNDERFLOW` when the stack is empty (R133,
spec/60_exceptions.md R203). -/
def execRet (s : State) : Host.Outcome State Fault Refusal :=
  match s.stack.getLast? with
  | none => raise .stackUnderflow s
  | some a => .next ((s.setStack s.stack.dropLast).setPc a)

/-- `SE Vx, nn` (R135). -/
def execSeImm (x : RegIx) (nn : Byte) (s : State) : Host.Outcome State Fault Refusal :=
  .next (s.skipIf (s.reg x == nn))

/-- `SNE Vx, nn` (R136). -/
def execSneImm (x : RegIx) (nn : Byte) (s : State) : Host.Outcome State Fault Refusal :=
  .next (s.skipIf (s.reg x != nn))

/-- `SE Vx, Vy` (R137). -/
def execSeReg (x y : RegIx) (s : State) : Host.Outcome State Fault Refusal :=
  .next (s.skipIf (s.reg x == s.reg y))

/-- `SNE Vx, Vy` (R138). -/
def execSneReg (x y : RegIx) (s : State) : Host.Outcome State Fault Refusal :=
  .next (s.skipIf (s.reg x != s.reg y))

end Sys2Proof.Machine
end

