-- ==== Sys2Proof/Machine/Display.lean ====
section
/-!
DEFINITION. The two display instructions and the sprite exclusive-or blitter of spec/44_display.md.
-/

namespace Sys2Proof.Machine

/-- `CLS`: every pixel off, no flag (R191). -/
def execCls (s : State) : Host.Outcome State Fault Refusal := .next (s.setDisp Display.blank)

/-- The bit of a sprite row for column `c`: bit 7 is the leftmost (R193; UNVERIFIED: D18, log entry 13). -/
def spriteBit (b : Byte) (c : Nat) : Bool := b.getLsbD (7 - c)

/-- What the blitter carries along: the display and the collision so far (R192). -/
structure Blit where
  disp : Display
  collision : Bool
  deriving DecidableEq, Repr

/-- One pixel of a sprite: a 1 bit on the surface toggles the destination and notes a set-to-unset transition; a
column right of the edge is clipped (R192). -/
def blitPixel (b : Byte) (x0 yy : Nat) (acc : Blit) (c : Nat) : Blit :=
  if x0 + c ≤ 63 ∧ spriteBit b c = true then
    { disp := Display.setPixel acc.disp (x0 + c) yy (!Display.pixel acc.disp (x0 + c) yy)
      collision := acc.collision || Display.pixel acc.disp (x0 + c) yy }
  else acc

/-- One row of a sprite, columns 0 to 7; a row below the bottom edge is clipped (R192). -/
def blitRow (row : Nat → Byte) (x0 y0 : Nat) (acc : Blit) (r : Nat) : Blit :=
  if y0 + r ≤ 31 then (List.range 8).foldl (blitPixel (row r) x0 (y0 + r)) acc else acc

/-- The rows 0 to `n - 1` of a sprite at the corner `(x0, y0)`, from no collision (R192). -/
def blit (row : Nat → Byte) (n x0 y0 : Nat) (d : Display) : Blit :=
  (List.range n).foldl (blitRow row x0 y0) { disp := d, collision := false }

/-- The blit of `DRW Vx, Vy, n`: rows from memory at `I`, the corner taken modulo the surface (R192). -/
def State.spriteBlit (s : State) (x y : RegIx) (n : BitVec 4) : Blit :=
  blit (fun r => s.readByte (s.ea r)) n.toNat ((s.reg x).toNat % Config.displayW)
    ((s.reg y).toNat % Config.displayH) s.disp

/-- `DRW Vx, Vy, n`: draws by exclusive-or, then writes the collision into `VF`, also when nothing was drawn (R192;
UNVERIFIED: D19, D20, log entry 14). -/
def execDrw (x y : RegIx) (n : BitVec 4) (s : State) : Host.Outcome State Fault Refusal :=
  withDataRange n.toNat
    (fun s => (s.setDisp (s.spriteBlit x y n).disp).setFlag (s.spriteBlit x y n).collision) s

end Sys2Proof.Machine
end

