-- ==== Sys2Proof/Machine/IndexMemory.lean ====
section
/-!
DEFINITION. The six index-register and memory instructions of spec/43_index_memory.md. The whole range is checked
before the first access (R53, R176).
-/

namespace Sys2Proof.Machine

/-- `LD I, nnn` (R170). -/
def execLdI (nnn : Addr12) (s : State) : Host.Outcome State Fault Refusal :=
  .next (s.setI (zextAddr nnn))

/-- `ADD I, Vx`: modulo 65536, no flag (R171; UNVERIFIED: D27, log entry 15). -/
def execAddI (x : RegIx) (s : State) : Host.Outcome State Fault Refusal :=
  .next (s.setI (BitVec.ofNat 16 (s.i.toNat + (s.reg x).toNat)))

/-- `LD F, Vx`: the whole 8-bit value times the stride (R172; UNVERIFIED: D15, log entry 11). -/
def execLdF (x : RegIx) (s : State) : Host.Outcome State Fault Refusal :=
  .next (s.setI (BitVec.ofNat 16 (Config.fontBase + Config.glyphStride * (s.reg x).toNat)))

/-- The hundreds, tens and ones digits of a byte (R173). -/
def bcdDigits (b : Byte) : List Byte :=
  [BitVec.ofNat 8 (b.toNat / 100), BitVec.ofNat 8 (b.toNat / 10 % 10), BitVec.ofNat 8 (b.toNat % 10)]

/-- `LD B, Vx`: three bytes from `I`, which does not change (R173; D31, log entry 16). -/
def execLdB (x : RegIx) (s : State) : Host.Outcome State Fault Refusal :=
  withDataRange 3 (fun s => s.writeBytes (s.ea 0) (bcdDigits (s.reg x))) s

/-- The number of registers that `LD [I], Vx` and `LD Vx, [I]` move: `x + 1` (R174, R175). -/
def regCount (x : RegIx) : Nat := x.toNat + 1

/-- `I <- trunc_16(I + x + 1)` (R174, R175). -/
def State.advanceI (s : State) (n : Nat) : State := s.setI (BitVec.ofNat 16 (s.i.toNat + n))

/-- `V[0]` to `V[n-1]`, ascending. -/
def State.firstRegs (s : State) (n : Nat) : List Byte :=
  (List.range n).map (fun k => s.reg (BitVec.ofNat 4 k))

/-- `LD [I], Vx`: `V[0]` to `V[x]` go to memory from `I`, then `I` moves past them (R174). -/
def execSaveRegs (x : RegIx) (s : State) : Host.Outcome State Fault Refusal :=
  withDataRange (regCount x)
    (fun s => (s.writeBytes (s.ea 0) (s.firstRegs (regCount x))).advanceI (regCount x)) s

/-- `V[k] <- MEM[I + k]` for `k` from 0 to `n - 1`, ascending. -/
def State.loadRegs (s : State) : Nat → State
  | 0 => s
  | n + 1 => (s.loadRegs n).setReg (BitVec.ofNat 4 n) (s.readByte (s.ea n))

/-- `LD Vx, [I]`: `V[0]` to `V[x]` come from memory from `I`, then `I` moves past them (R175). -/
def execRestoreRegs (x : RegIx) (s : State) : Host.Outcome State Fault Refusal :=
  withDataRange (regCount x) (fun s => (s.loadRegs (regCount x)).advanceI (regCount x)) s

end Sys2Proof.Machine
end

