-- ==== Sys2Proof/Machine/TimersKeys.lean ====
section
/-!
DEFINITION. The six timer and key instructions of spec/42_timers_keys.md.
-/

namespace Sys2Proof.Machine

/-- `LD Vx, DT` (R150). -/
def execLdVxDT (x : RegIx) (s : State) : Host.Outcome State Fault Refusal :=
  .next (s.setReg x s.dt)

/-- `LD DT, Vx` (R151). -/
def execLdDTVx (x : RegIx) (s : State) : Host.Outcome State Fault Refusal :=
  .next (s.setDt (s.reg x))

/-- `LD ST, Vx`: a value of 0 or 1 is stored as 0 (R152). -/
def execLdSTVx (x : RegIx) (s : State) : Host.Outcome State Fault Refusal :=
  .next (s.setSt (if 1 < (s.reg x).toNat then s.reg x else 0x00#8))

/-- `SKP Vx` (R154). -/
def execSkp (x : RegIx) (s : State) : Host.Outcome State Fault Refusal :=
  .next (s.skipIf (s.keyHeld (s.reg x)))

/-- `SKNP Vx` (R155). -/
def execSknp (x : RegIx) (s : State) : Host.Outcome State Fault Refusal :=
  .next (s.skipIf (!s.keyHeld (s.reg x)))

/-- Back to this instruction: `PC <- PC - 2` on the advanced `PC` (R153). -/
def State.rewindPc (s : State) : State := s.setPc (s.pc - 2#16)

/-- `LD Vx, K`: begins to wait, goes on waiting, or takes the key released since (R153; UNVERIFIED: D17, log entry
12). A waiting execution is a SUCCESS that rewinds `PC`. -/
def execLdVxK (x : RegIx) (s : State) : Host.Outcome State Fault Refusal :=
  match s.wait, s.key with
  | false, _ => .next ((s.setWaitKey true none).rewindPc)
  | true, none => .next s.rewindPc
  | true, some k => .next ((s.setReg x (k.setWidth 8)).setWaitKey false none)

end Sys2Proof.Machine
end

