-- ==== Sys2Proof/Machine/Environment.lean ====
section
/-!
DEFINITION. The transitions that are not instructions: the timer countdown, the key events, reset with a program
image, and the output ports (spec/60_exceptions.md R211 to R217, spec/70_reset_and_hazards.md R240 to R243).
-/

namespace Sys2Proof.Machine

/-- One count of a timer, with the floor at zero (R211). -/
def countDown (t : Byte) : Byte := if 0 < t.toNat then BitVec.ofNat 8 (t.toNat - 1) else t

/-- `TimerTick()`: nothing while halted (R211, R207). -/
def timerTick (s : State) : State :=
  if s.fault.isSome then s else (s.setDt (countDown s.dt)).setSt (countDown s.st)

/-- `KeyRelease(k)`: latched only while the machine waits; the latest wins; nothing while halted (R215, R207;
UNVERIFIED: D17, log entry 12). -/
def keyRelease (k : KeyCode) (s : State) : State :=
  if s.fault.isSome then s else if s.wait then s.setWaitKey true (some k) else s

/-- `KeysHeld(held)`: the level on the port changes; nothing while halted (R214, R207). -/
def presentKeys (held : BitVec 16) (s : State) : State :=
  if s.fault.isSome then s else { s with keysHeld := held }

/-- The assignments of `Reset` (R240) but for the image: font, zero fill, registers, timers, stack, display, key wait
and fault. The ports, the parameter and the schedule are no state of the core and stay (DESIGN CHOICE, log entry 25). -/
def clearForReset (s : State) : State :=
  { s with
    v := Vector.replicate 16 0x00#8
    i := 0x0000#16
    pc := BitVec.ofNat 16 Config.programBase
    dt := 0x00#8
    st := 0x00#8
    stack := []
    mem := []
    disp := Display.blank
    wait := false
    key := none
    fault := none }

/-- `Reset(image)`: the image is copied verbatim from 0x200 on; an image longer than 3584 bytes is refused (R240,
R242; D22, log entry 18). The only exit from the halted state (R208). -/
def resetWith (image : List Byte) (s : State) : Host.Outcome State Fault Refusal :=
  if imageWf image then .next ((clearForReset s).writeBytes Config.programBase image)
  else .refused (.oversizedImage image.length)

/-! ## Output ports (spec/10_state.md R32) -/

/-- `DISPLAY` (R217). -/
def displayPort (s : State) : Display := s.disp

/-- `SOUND_TIMER` (R213). -/
def soundTimerPort (s : State) : Byte := s.st

/-- `RESULT` after a `Step`: `none` is SUCCESS; a halted `Step` returns the stored tag (R130, R206 (d), R207). -/
def resultPort (s : State) : Option Fault := s.fault

/-- The reference number of a result tag (R200). -/
def resultCode : Option Fault → Nat
  | none => 0
  | some (.stackOverflow _) => 1
  | some .stackUnderflow => 2
  | some (.invalidInstruction _) => 3
  | some (.addressFault _ _) => 4

end Sys2Proof.Machine
end

