-- ==== Sys2Proof/Machine/Sequencer.lean ====
section
/-!
DEFINITION. The sequencer: fetch, `Step` (spec/41_control.md R130), the five transitions (spec/00_scope.md R7) and
the frame sequencer (spec/60_exceptions.md R212).
-/

namespace Sys2Proof.Machine

/-- The fault of the fetch, if any: the alignment test comes before the bounds test (R55, R54, R205; UNVERIFIED: D7,
D8, log entry 8). -/
def fetchFault? (s : State) : Option Fault :=
  if s.pc.getLsbD 0 then some (.addressFault .fetchMisaligned s.pc)
  else if 0xFFE < s.pc.toNat then some (.addressFault .fetchBounds s.pc)
  else none

/-- `w <- MemRead(PC, 1) :: MemRead(PC + 1, 1)` (R54). -/
def fetchWord (s : State) : Word := wordOfBytes (s.readByte s.pc.toNat) (s.readByte (s.pc.toNat + 1))

/-- The part of `Step` after the fetch: `PC` advances first, then the word is decoded and runs, or faults as an
invalid instruction (R130, R201). -/
def runWord (w : Word) (s : State) : Host.Outcome State Fault Refusal :=
  match decodeWord w with
  | .ok i => exec i s.advancePc
  | .error _ => raise (.invalidInstruction w) s.advancePc

/-- `Step()` (R130). While halted nothing changes and the stored tag stays on the port (R207). -/
def coreStep (s : State) : Host.Outcome State Fault Refusal :=
  if s.fault.isSome then .next s
  else
    match fetchFault? s with
    | some f => raise f s
    | none => runWord (fetchWord s) s

/-- One transition of the machine (spec/00_scope.md R7). -/
def fire (t : Transition) (s : State) : Host.Outcome State Fault Refusal :=
  match t with
  | .coreStep => coreStep s
  | .timerTick => .next (timerTick s)
  | .keyRelease k => .next (keyRelease k s)
  | .keysHeld held => .next (presentKeys held s)
  | .reset image => resetWith image s

/-- The state whose schedule is `l`. -/
def State.setSchedule (s : State) (l : List Transition) : State := { s with schedule := l }

/-- The transition that comes next: the first of the schedule, or the core's own `Step` when there is none (R7, R221;
log entry 21). -/
def nextTransition (s : State) : Host.Outcome State Fault Refusal :=
  match s.schedule with
  | [] => coreStep s
  | t :: rest => fire t (s.setSchedule rest)

/-- The `Step`s of a frame, ended early by a result that is not SUCCESS (R212). -/
def frameSteps : Nat → State → Host.Outcome State Fault Refusal
  | 0, s => .next s
  | n + 1, s =>
    match coreStep s with
    | .next s' => if s'.fault.isSome then .next s' else frameSteps n s'
    | .fault f => .fault f
    | .refused r => .refused r

/-- `Frame()` with `TICKS_PER_UPDATE` = `ticks`: that many `Step`s, then one `TimerTick` unless the frame ended early
(R212; the parameter is a positive integer, R4, and OPEN, D24, log entry 21). -/
def frame (ticks : Positive) (s : State) : Host.Outcome State Fault Refusal :=
  match frameSteps ticks.val s with
  | .next s' => if s'.fault.isSome then .next s' else .next (timerTick s')
  | .fault f => .fault f
  | .refused r => .refused r

/-- The schedule of one frame (R212). -/
def frameSchedule (ticks : Positive) : List Transition := List.replicate ticks.val .coreStep ++ [.timerTick]

/-- The state whose very next transition fetches the word `w`: the word stands at `PC`, high byte first, the machine is
not halted and the core moves next (log entry 22). -/
def placeWord (w : Word) (s : State) : State :=
  { (s.writeBytes s.pc.toNat [highByte w, lowByte w]) with fault := none, schedule := [] }

end Sys2Proof.Machine
end

