-- ==== Sys2Proof/Machine/Step.lean ====
section
/-!
DEFINITION. The step of the machine and the placing of one instruction for the host. What a step does stands in
Machine/Sequencer.lean.
-/

namespace Sys2Proof.Machine

/-- One transition of the machine: the next of the schedule, else the core's `Step`. -/
def step (s : State) : Host.Outcome State Fault Refusal := nextTransition s

/-- `s` with the instruction of bits `w` (numbered as spec/opcode_table.json numbers them, the bits at and above
`nbits` zero) where the next step fetches it. -/
def State.withFetchWord (s : State) (nbits w : Nat) : State :=
  placeWord (BitVec.ofNat 16 (w % 2 ^ nbits)) s

end Sys2Proof.Machine
end

