-- ==== Sys2Proof/Laws/Fields.lean ====
section
/-!
SUPPORT. An instruction word and its fields (spec/30_encoding.md R71): the fields as numbers, the decoder in terms of
them, and a word put together again from them or from its two bytes.
-/

namespace Sys2Proof

theorem fieldOp_toNat (w : Word) : (fieldOp w).toNat = w.toNat / 0x1000 := by
  have := w.isLt
  simp only [fieldOp, BitVec.extractLsb'_toNat, Nat.shiftRight_eq_div_pow]
  omega

theorem fieldX_toNat (w : Word) : (fieldX w).toNat = w.toNat / 0x100 % 16 := by
  simp [fieldX, BitVec.extractLsb'_toNat, Nat.shiftRight_eq_div_pow]

theorem fieldY_toNat (w : Word) : (fieldY w).toNat = w.toNat / 0x10 % 16 := by
  simp [fieldY, BitVec.extractLsb'_toNat, Nat.shiftRight_eq_div_pow]

theorem fieldN_toNat (w : Word) : (fieldN w).toNat = w.toNat % 16 := by
  simp [fieldN, BitVec.extractLsb'_toNat]

theorem fieldNN_toNat (w : Word) : (fieldNN w).toNat = w.toNat % 256 := by
  simp [fieldNN, BitVec.extractLsb'_toNat]

theorem fieldNNN_toNat (w : Word) : (fieldNNN w).toNat = w.toNat % 4096 := by
  simp [fieldNNN, BitVec.extractLsb'_toNat]

theorem word_of_op_nnn (w : Word) : (fieldOp w ++ fieldNNN w : Word) = w := by
  ext k hk
  simp only [fieldOp, fieldNNN, BitVec.getElem_append, BitVec.getElem_extractLsb']
  grind

theorem word_of_op_x_nn (w : Word) : (fieldOp w ++ fieldX w ++ fieldNN w : Word) = w := by
  ext k hk
  simp only [fieldOp, fieldX, fieldNN, BitVec.getElem_append, BitVec.getElem_extractLsb']
  grind

theorem word_of_op_x_y_n (w : Word) : (fieldOp w ++ fieldX w ++ fieldY w ++ fieldN w : Word) = w := by
  ext k hk
  simp only [fieldOp, fieldX, fieldY, fieldN, BitVec.getElem_append, BitVec.getElem_extractLsb']
  grind

/-- The decoder in one equation: the kind of the word with its fields at their own widths. -/
theorem decodeWord_eq (w : Word) : decodeWord w =
    match kindOf w with
    | .cls => .ok .cls
    | .ret => .ok .ret
    | .jp => .ok (.jp (fieldNNN w))
    | .call => .ok (.call (fieldNNN w))
    | .seImm => .ok (.seImm (fieldX w) (fieldNN w))
    | .sneImm => .ok (.sneImm (fieldX w) (fieldNN w))
    | .seReg => .ok (.seReg (fieldX w) (fieldY w))
    | .ldImm => .ok (.ldImm (fieldX w) (fieldNN w))
    | .addImm => .ok (.addImm (fieldX w) (fieldNN w))
    | .ldReg => .ok (.ldReg (fieldX w) (fieldY w))
    | .orReg => .ok (.orReg (fieldX w) (fieldY w))
    | .andReg => .ok (.andReg (fieldX w) (fieldY w))
    | .xorReg => .ok (.xorReg (fieldX w) (fieldY w))
    | .addReg => .ok (.addReg (fieldX w) (fieldY w))
    | .subReg => .ok (.subReg (fieldX w) (fieldY w))
    | .shr => .ok (.shr (fieldX w) (fieldY w))
    | .subn => .ok (.subn (fieldX w) (fieldY w))
    | .shl => .ok (.shl (fieldX w) (fieldY w))
    | .sneReg => .ok (.sneReg (fieldX w) (fieldY w))
    | .ldI => .ok (.ldI (fieldNNN w))
    | .jpV0 => .ok (.jpV0 (fieldNNN w))
    | .rnd => .ok (.rnd (fieldX w) (fieldNN w))
    | .drw => .ok (.drw (fieldX w) (fieldY w) (fieldN w))
    | .skp => .ok (.skp (fieldX w))
    | .sknp => .ok (.sknp (fieldX w))
    | .ldVxDT => .ok (.ldVxDT (fieldX w))
    | .ldVxK => .ok (.ldVxK (fieldX w))
    | .ldDTVx => .ok (.ldDTVx (fieldX w))
    | .ldSTVx => .ok (.ldSTVx (fieldX w))
    | .addI => .ok (.addI (fieldX w))
    | .ldF => .ok (.ldF (fieldX w))
    | .ldB => .ok (.ldB (fieldX w))
    | .saveRegs => .ok (.saveRegs (fieldX w))
    | .restoreRegs => .ok (.restoreRegs (fieldX w))
    | .invalid => .error (.invalidInstruction w) := by
  unfold decodeWord instrOf decodeRecord
  cases kindOf w <;> simp [formatOf, immOf]

/-- The decoder refuses exactly the words of kind INVALID. -/
theorem decodeWord_error_iff (w : Word) :
    decodeWord w = .error (.invalidInstruction w) ↔ kindOf w = .invalid := by
  rw [decodeWord_eq]
  cases kindOf w <;> simp

/-! Which words a group refuses (R78). -/

theorem kindGroup0_invalid (nnn : Addr12) :
    kindGroup0 nnn = .invalid ↔ nnn.toNat ≠ 0x0E0 ∧ nnn.toNat ≠ 0x0EE := by
  unfold kindGroup0
  split <;> (try split) <;> simp_all [← BitVec.toNat_inj]

theorem kindGroup8_invalid : ∀ n : BitVec 4,
    kindGroup8 n = .invalid ↔ n.toNat ∈ [0x8, 0x9, 0xA, 0xB, 0xC, 0xD, 0xF] := by decide

theorem kindGroupE_invalid (nn : Byte) :
    kindGroupE nn = .invalid ↔ nn.toNat ∉ [0x9E, 0xA1] := by
  unfold kindGroupE
  split <;> simp_all [← BitVec.toNat_inj]

theorem kindGroupF_invalid (nn : Byte) :
    kindGroupF nn = .invalid ↔
      nn.toNat ∉ [0x07, 0x0A, 0x15, 0x18, 0x1E, 0x29, 0x33, 0x55, 0x65] := by
  unfold kindGroupF
  split <;> simp_all [← BitVec.toNat_inj]

/-- The only top nibble left when the others are excluded. -/
theorem op_eq_F : ∀ o : BitVec 4, ¬o = 0#4 → ¬o = 1#4 → ¬o = 2#4 → ¬o = 3#4 → ¬o = 4#4 →
    ¬o = 5#4 → ¬o = 6#4 → ¬o = 7#4 → ¬o = 8#4 → ¬o = 9#4 → ¬o = 10#4 → ¬o = 11#4 →
    ¬o = 12#4 → ¬o = 13#4 → ¬o = 14#4 → o = 15#4 := by
  intro o
  simp only [← BitVec.toNat_inj, BitVec.toNat_ofNat]
  omega

/-- The two bytes of a word, put together again (spec/20_memory.md R54). -/
@[simp] theorem wordOfBytes_high_low (w : Word) : wordOfBytes (highByte w) (lowByte w) = w := by
  ext k hk
  simp only [wordOfBytes, highByte, lowByte]
  grind

theorem wordOfBytes_toNat (hi lo : Byte) :
    (wordOfBytes hi lo).toNat = 256 * hi.toNat + lo.toNat := by
  have := lo.isLt
  simp only [wordOfBytes, BitVec.toNat_append]
  rw [← Nat.shiftLeft_add_eq_or_of_lt this, Nat.shiftLeft_eq]
  omega

end Sys2Proof
end

