-- ==== Sys2Proof/Laws/PerInstr.lean ====
section
/-!
SUPPORT. Facts about every instruction as syntax, one lemma for each constructor: the family `RoundTrip`, that the
decoder reads back the word the encoder writes (spec/30_encoding.md R80).
-/

namespace Sys2Proof.Laws.RoundTrip

/-- The instruction is well formed and its word decodes to it. -/
def Statement (i : Instr) : Prop := i.wf = true ∧ decodeWord (encode i) = .ok i

/-! ## The fields of a word put together from its nibble columns (R72) -/

section Fields
variable (o x y n : BitVec 4) (nn : Byte) (nnn : Addr12)

@[simp] theorem op_nnn : fieldOp (o ++ nnn) = o := by
  ext k hk
  simp only [fieldOp, BitVec.getElem_extractLsb', BitVec.getLsbD_append]
  grind
@[simp] theorem nnn_nnn : fieldNNN (o ++ nnn) = nnn := by
  ext k hk
  simp only [fieldNNN, BitVec.getElem_extractLsb', BitVec.getLsbD_append]
  grind
@[simp] theorem op_xnn : fieldOp (o ++ x ++ nn) = o := by
  ext k hk
  simp only [fieldOp, BitVec.getElem_extractLsb', BitVec.getLsbD_append]
  grind
@[simp] theorem x_xnn : fieldX (o ++ x ++ nn) = x := by
  ext k hk
  simp only [fieldX, BitVec.getElem_extractLsb', BitVec.getLsbD_append]
  grind
@[simp] theorem nn_xnn : fieldNN (o ++ x ++ nn) = nn := by
  ext k hk
  simp only [fieldNN, BitVec.getElem_extractLsb', BitVec.getLsbD_append]
  grind
@[simp] theorem op_xyn : fieldOp (o ++ x ++ y ++ n) = o := by
  ext k hk
  simp only [fieldOp, BitVec.getElem_extractLsb', BitVec.getLsbD_append]
  grind
@[simp] theorem x_xyn : fieldX (o ++ x ++ y ++ n) = x := by
  ext k hk
  simp only [fieldX, BitVec.getElem_extractLsb', BitVec.getLsbD_append]
  grind
@[simp] theorem y_xyn : fieldY (o ++ x ++ y ++ n) = y := by
  ext k hk
  simp only [fieldY, BitVec.getElem_extractLsb', BitVec.getLsbD_append]
  grind
@[simp] theorem n_xyn : fieldN (o ++ x ++ y ++ n) = n := by
  ext k hk
  simp only [fieldN, BitVec.getElem_extractLsb', BitVec.getLsbD_append]
  grind

end Fields

/-! ## One lemma for each constructor -/

theorem cls : Statement .cls :=
  ⟨rfl, by decide⟩
theorem ret : Statement .ret :=
  ⟨rfl, by decide⟩
theorem jp (nnn : Addr12) : Statement (.jp nnn) :=
  ⟨rfl, by simp [encode, decodeWord_eq, kindOf]⟩
theorem call (nnn : Addr12) : Statement (.call nnn) :=
  ⟨rfl, by simp [encode, decodeWord_eq, kindOf]⟩
theorem seImm (x : RegIx) (nn : Byte) : Statement (.seImm x nn) :=
  ⟨rfl, by simp [encode, decodeWord_eq, kindOf]⟩
theorem sneImm (x : RegIx) (nn : Byte) : Statement (.sneImm x nn) :=
  ⟨rfl, by simp [encode, decodeWord_eq, kindOf]⟩
theorem seReg (x : RegIx) (y : RegIx) : Statement (.seReg x y) :=
  ⟨rfl, by simp [encode, decodeWord_eq, kindOf]⟩
theorem ldImm (x : RegIx) (nn : Byte) : Statement (.ldImm x nn) :=
  ⟨rfl, by simp [encode, decodeWord_eq, kindOf]⟩
theorem addImm (x : RegIx) (nn : Byte) : Statement (.addImm x nn) :=
  ⟨rfl, by simp [encode, decodeWord_eq, kindOf]⟩
theorem ldReg (x : RegIx) (y : RegIx) : Statement (.ldReg x y) :=
  ⟨rfl, by simp [encode, decodeWord_eq, kindOf, kindGroup8]⟩
theorem orReg (x : RegIx) (y : RegIx) : Statement (.orReg x y) :=
  ⟨rfl, by simp [encode, decodeWord_eq, kindOf, kindGroup8]⟩
theorem andReg (x : RegIx) (y : RegIx) : Statement (.andReg x y) :=
  ⟨rfl, by simp [encode, decodeWord_eq, kindOf, kindGroup8]⟩
theorem xorReg (x : RegIx) (y : RegIx) : Statement (.xorReg x y) :=
  ⟨rfl, by simp [encode, decodeWord_eq, kindOf, kindGroup8]⟩
theorem addReg (x : RegIx) (y : RegIx) : Statement (.addReg x y) :=
  ⟨rfl, by simp [encode, decodeWord_eq, kindOf, kindGroup8]⟩
theorem subReg (x : RegIx) (y : RegIx) : Statement (.subReg x y) :=
  ⟨rfl, by simp [encode, decodeWord_eq, kindOf, kindGroup8]⟩
theorem shr (x : RegIx) (y : RegIx) : Statement (.shr x y) :=
  ⟨rfl, by simp [encode, decodeWord_eq, kindOf, kindGroup8]⟩
theorem subn (x : RegIx) (y : RegIx) : Statement (.subn x y) :=
  ⟨rfl, by simp [encode, decodeWord_eq, kindOf, kindGroup8]⟩
theorem shl (x : RegIx) (y : RegIx) : Statement (.shl x y) :=
  ⟨rfl, by simp [encode, decodeWord_eq, kindOf, kindGroup8]⟩
theorem sneReg (x : RegIx) (y : RegIx) : Statement (.sneReg x y) :=
  ⟨rfl, by simp [encode, decodeWord_eq, kindOf]⟩
theorem ldI (nnn : Addr12) : Statement (.ldI nnn) :=
  ⟨rfl, by simp [encode, decodeWord_eq, kindOf]⟩
theorem jpV0 (nnn : Addr12) : Statement (.jpV0 nnn) :=
  ⟨rfl, by simp [encode, decodeWord_eq, kindOf]⟩
theorem rnd (x : RegIx) (nn : Byte) : Statement (.rnd x nn) :=
  ⟨rfl, by simp [encode, decodeWord_eq, kindOf]⟩
theorem drw (x : RegIx) (y : RegIx) (n : BitVec 4) : Statement (.drw x y n) :=
  ⟨rfl, by simp [encode, decodeWord_eq, kindOf]⟩
theorem skp (x : RegIx) : Statement (.skp x) :=
  ⟨rfl, by simp [encode, decodeWord_eq, kindOf, kindGroupE]⟩
theorem sknp (x : RegIx) : Statement (.sknp x) :=
  ⟨rfl, by simp [encode, decodeWord_eq, kindOf, kindGroupE]⟩
theorem ldVxDT (x : RegIx) : Statement (.ldVxDT x) :=
  ⟨rfl, by simp [encode, decodeWord_eq, kindOf, kindGroupF]⟩
theorem ldVxK (x : RegIx) : Statement (.ldVxK x) :=
  ⟨rfl, by simp [encode, decodeWord_eq, kindOf, kindGroupF]⟩
theorem ldDTVx (x : RegIx) : Statement (.ldDTVx x) :=
  ⟨rfl, by simp [encode, decodeWord_eq, kindOf, kindGroupF]⟩
theorem ldSTVx (x : RegIx) : Statement (.ldSTVx x) :=
  ⟨rfl, by simp [encode, decodeWord_eq, kindOf, kindGroupF]⟩
theorem addI (x : RegIx) : Statement (.addI x) :=
  ⟨rfl, by simp [encode, decodeWord_eq, kindOf, kindGroupF]⟩
theorem ldF (x : RegIx) : Statement (.ldF x) :=
  ⟨rfl, by simp [encode, decodeWord_eq, kindOf, kindGroupF]⟩
theorem ldB (x : RegIx) : Statement (.ldB x) :=
  ⟨rfl, by simp [encode, decodeWord_eq, kindOf, kindGroupF]⟩
theorem saveRegs (x : RegIx) : Statement (.saveRegs x) :=
  ⟨rfl, by simp [encode, decodeWord_eq, kindOf, kindGroupF]⟩
theorem restoreRegs (x : RegIx) : Statement (.restoreRegs x) :=
  ⟨rfl, by simp [encode, decodeWord_eq, kindOf, kindGroupF]⟩

end Sys2Proof.Laws.RoundTrip
end

