-- ==== Sys2Proof/Safety.lean ====
section
/-!
DEFINITION. The terms in which claims speak: what a state leaves unchanged (frames), what counts as a safe run, the
invariants, and the pixels a sprite covers.
-/

namespace Sys2Proof.Machine

/-! ## Frames -/

/-- The fields of State, named. -/
inductive Field where
  | v | i | pc | dt | st | stack | mem | disp | wait | key | fault
  | keysHeld | rngQueue | draws | stackDepth | schedule
  deriving DecidableEq, Repr

/-- The field is the same in both states: register by register, and memory byte by byte. -/
def Field.same (s t : State) : Field → Prop
  | .v => ∀ r, t.reg r = s.reg r
  | .i => t.i = s.i
  | .pc => t.pc = s.pc
  | .dt => t.dt = s.dt
  | .st => t.st = s.st
  | .stack => t.stack = s.stack
  | .mem => ∀ a, t.readByte a = s.readByte a
  | .disp => t.disp = s.disp
  | .wait => t.wait = s.wait
  | .key => t.key = s.key
  | .fault => t.fault = s.fault
  | .keysHeld => t.keysHeld = s.keysHeld
  | .rngQueue => t.rngQueue = s.rngQueue
  | .draws => t.draws = s.draws
  | .stackDepth => t.stackDepth = s.stackDepth
  | .schedule => t.schedule = s.schedule

/-- Every field but the listed ones is the same in both states. -/
def Unchanged (listed : List Field) (s t : State) : Prop := ∀ f : Field, f ∉ listed → f.same s t

/-- Every register but the listed ones is the same in both states. -/
def RegsUnchanged (listed : List RegIx) (s t : State) : Prop := ∀ r, r ∉ listed → t.reg r = s.reg r

/-! ## Runs -/

/-- The core's own `Step` comes next and can fetch: not halted, nothing scheduled, `PC` even and at most 0xFFE
(spec/70_reset_and_hazards.md R245 (a), (b)). -/
def CanFetch (s : State) : Prop :=
  s.schedule = [] ∧ s.fault = none ∧ s.pc.toNat % 2 = 0 ∧ s.pc.toNat ≤ 0xFFE

/-- A safe run of `k` transitions: it ends in a state that is not halted (spec/60_exceptions.md R207: 'A halted state is
never a successful end of a run'). -/
def SafeRun (k : Nat) (s : State) : Prop :=
  ∃ t : State, Host.Core.run Sys2Proof.core k s = .next t ∧ t.fault = none

/-- The next state of an outcome, changed by `f`; any other outcome as it is. -/
def mapNext (f : State → State) :
    Host.Outcome State Fault Refusal → Host.Outcome State Fault Refusal
  | .next s => .next (f s)
  | .fault e => .fault e
  | .refused r => .refused r

/-- The state with another level on the port `KEYS_HELD`. -/
def State.withKeysHeld (s : State) (held : BitVec 16) : State := { s with keysHeld := held }

/-- `CALL`s one after another, each pair an advanced `PC` and a target. -/
def callChain : List (Word × Addr12) → State → Host.Outcome State Fault Refusal
  | [], s => .next s
  | (a, nnn) :: rest, s =>
    match exec (.call nnn) (s.setPc a) with
    | .next t => callChain rest t
    | .fault e => .fault e
    | .refused r => .refused r

/-- `n` `RET`s one after another: the values of `PC` they leave, in order, and the last state; `none` where one of them
raises a fault. -/
def returnChain : Nat → State → Option (List Word × State)
  | 0, s => some ([], s)
  | n + 1, s =>
    match exec .ret s with
    | .next t => if t.fault.isSome then none else (returnChain n t).map (fun p => (t.pc :: p.1, p.2))
    | _ => none

/-! ## Invariants -/

/-- Memory keeps its canonical form, the stack holds at most `STACK_DEPTH` entries (spec/10_state.md R26), and no key is
latched while nothing waits (R29). -/
def State.Inv (s : State) : Prop :=
  Memory.wf s.mem ∧ s.sp ≤ s.stackDepth.val ∧ (s.wait = false → s.key = none)

/-- `PC` never goes above 0x10FE (spec/10_state.md R23), and every return address is even and between 0x002 and 0x1000
(spec/41_control.md R132). -/
def State.PcInv (s : State) : Prop :=
  s.pc.toNat ≤ 0x10FE ∧ ∀ a ∈ s.stack, a.toNat % 2 = 0 ∧ 0x002 ≤ a.toNat ∧ a.toNat ≤ 0x1000

/-- While the machine waits for a key it is not halted and the word at `PC` is a key wait (spec/42_timers_keys.md
R153: 'While WAIT = 1 no other instruction executes'). -/
def State.KeyWaitInv (s : State) : Prop :=
  s.wait = true →
    s.fault = none ∧ fetchFault? s = none ∧ ∃ x, decodeWord (fetchWord s) = .ok (.ldVxK x)

/-! ## Sprites -/

/-- The sprite of `DRW Vx, Vy, n` has a 1 bit at column `xx`, row `yy` of the display (spec/44_display.md R192, R193). -/
def SpriteCovers (s : State) (x y : RegIx) (n : BitVec 4) (xx yy : Nat) : Prop :=
  ∃ r c, r < n.toNat ∧ c < 8 ∧ xx = (s.reg x).toNat % 64 + c ∧ yy = (s.reg y).toNat % 32 + r ∧
    (s.readByte (s.i.toNat + r)).getLsbD (7 - c) = true

end Sys2Proof.Machine
end

