-- ==== Sys2Proof/Certificates/Slice0/Obligations.lean ====
section
/-!
DEFINITION. The statements for the provers. Unless a docstring says otherwise, `s` is the state on which an
instruction's rule runs: `PC` has been advanced by 2 (spec/41_control.md R130), so that 'pc unchanged' means
'execution goes on at the next word'. Where a clause rests on a decision of the spec's own (spec/92_eei_decisions.md),
the docstring names it.
-/

open Sys2Proof Sys2Proof.Machine

/-! ## Reset and program load -/

/-- R35: registers, timers, stack and `PC` as the source states them; `I`, the display, the key wait and the bytes
outside the font by the spec's decision D21, the glyph bytes by D14, no fault by D10. -/
def Obligations.ResetStateValues : Prop :=
  (∀ r, State.reset.reg r = 0#8) ∧ State.reset.i = 0#16 ∧ State.reset.pc = 0x200#16 ∧
  State.reset.dt = 0#8 ∧ State.reset.st = 0#8 ∧ State.reset.sp = 0 ∧
  (∀ x y, State.reset.pixel x y = false) ∧ State.reset.wait = false ∧ State.reset.key = none ∧
  State.reset.fault = none ∧
  (List.range 5).map State.reset.readByte = [0xF0, 0x90, 0x90, 0x90, 0xF0] ∧
  (List.range 5).map (fun k => State.reset.readByte (0x4B + k)) = [0xF0, 0x80, 0xF0, 0x80, 0x80] ∧
  (∀ a, 0x50 ≤ a → State.reset.readByte a = 0#8)

/-- R240: `Reset(image)` copies the image verbatim from 0x200 on; everything else is as after reset of an empty image.
The last clause, that the ports and the parameter stay, is the model's choice (log entry 25). -/
def Obligations.ResetLoadsImage : Prop :=
  ∀ (image : List Byte) (s : State), image.length ≤ 3584 →
    ∃ t, fire (.reset image) s = .next t ∧
      (∀ k (h : k < image.length), t.readByte (0x200 + k) = image[k]) ∧
      (∀ a, a < 0x200 ∨ 0x200 + image.length ≤ a → t.readByte a = State.reset.readByte a) ∧
      (∀ r, t.reg r = 0#8) ∧ t.i = 0#16 ∧ t.pc = 0x200#16 ∧ t.dt = 0#8 ∧ t.st = 0#8 ∧ t.stack = [] ∧
      (∀ x y, t.pixel x y = false) ∧ t.wait = false ∧ t.key = none ∧ t.fault = none ∧
      t.keysHeld = s.keysHeld ∧ t.rngQueue = s.rngQueue ∧ t.draws = s.draws ∧
      t.stackDepth = s.stackDepth ∧ t.schedule = s.schedule

/-- R242 (the spec's decision D22): a longer image gives no machine state. -/
def Obligations.OversizedImageRefused : Prop :=
  ∀ (image : List Byte) (s : State), 3584 < image.length →
    fire (.reset image) s = .refused (.oversizedImage image.length)

/-! ## Decoding -/

/-- Words of the spec's table, one or more of each format, and refused neighbours (R76, R78; the numbers are the
spec's decision D2). -/
def Obligations.DecodeReadsSpecWords : Prop :=
  decodeWord 0x00E0#16 = .ok .cls ∧ decodeWord 0x00EE#16 = .ok .ret ∧
  decodeWord 0x1ABC#16 = .ok (.jp 0xABC#12) ∧ decodeWord 0x3A42#16 = .ok (.seImm 0xA#4 0x42#8) ∧
  decodeWord 0x8AB6#16 = .ok (.shr 0xA#4 0xB#4) ∧ decodeWord 0x8ABE#16 = .ok (.shl 0xA#4 0xB#4) ∧
  decodeWord 0xD125#16 = .ok (.drw 1#4 2#4 5#4) ∧ decodeWord 0xE19E#16 = .ok (.skp 1#4) ∧
  decodeWord 0xFF65#16 = .ok (.restoreRegs 0xF#4) ∧
  decodeWord 0x01E0#16 = .error (.invalidInstruction 0x01E0#16) ∧
  decodeWord 0x5AB1#16 = .error (.invalidInstruction 0x5AB1#16) ∧
  decodeWord 0xFF66#16 = .error (.invalidInstruction 0xFF66#16)

/-- R73: the record `(kind, x, y, imm)` of a word: `x` and `y` always extracted, `imm` the zero-extended 16-bit container
of the field its format uses and 0 where it uses none, INVALID included (the container's width by
spec/90_conflicts.md C6); `INVALID` is the kind of exactly the words that have no instruction, and the instruction of
any other word is that of its record. -/
def Obligations.DecodedRecordFields : Prop :=
  ∀ w : Word,
    (decodeRecord w).x.toNat = w.toNat / 0x100 % 16 ∧ (decodeRecord w).y.toNat = w.toNat / 0x10 % 16 ∧
    (decodeRecord w).imm.toNat =
      (match formatOf (decodeRecord w).kind with
        | some .nnn => w.toNat % 0x1000
        | some .xnn => w.toNat % 0x100
        | some .xyn => w.toNat % 0x10
        | some .fixed | some .xy | some .x | none => 0) ∧
    ((decodeRecord w).kind = .invalid ↔ decodeWord w = .error (.invalidInstruction w)) ∧
    (∀ i, decodeWord w = .ok i ↔ instrOf (decodeRecord w) = some i)

/-- The two bytes of an instruction, in front of any others, decode to that instruction and leave the others: no field
bit is dropped. -/
def Obligations.DecodeOfEncodedInstruction : Prop :=
  ∀ (i : Instr) (rest : List Byte), decode (encodeBytes i ++ rest) = .ok (i, rest)

/-- R80: `Encode(Decode(w)) = w` for every valid `w`. -/
def Obligations.EncodeOfDecodedWord : Prop :=
  ∀ (w : Word) (i : Instr), decodeWord w = .ok i → encode i = w

/-- R78: the invalid words are exactly the listed ones, and each is refused by its own name. -/
def Obligations.InvalidWordsExactly : Prop :=
  ∀ w : Word, decodeWord w = .error (.invalidInstruction w) ↔
    (w.toNat < 0x1000 ∧ w.toNat ≠ 0x00E0 ∧ w.toNat ≠ 0x00EE) ∨
    (w.toNat / 0x1000 = 0x5 ∧ w.toNat % 16 ≠ 0) ∨
    (w.toNat / 0x1000 = 0x8 ∧ w.toNat % 16 ∈ [0x8, 0x9, 0xA, 0xB, 0xC, 0xD, 0xF]) ∨
    (w.toNat / 0x1000 = 0x9 ∧ w.toNat % 16 ≠ 0) ∨
    (w.toNat / 0x1000 = 0xE ∧ w.toNat % 256 ∉ [0x9E, 0xA1]) ∨
    (w.toNat / 0x1000 = 0xF ∧
      w.toNat % 256 ∉ [0x07, 0x0A, 0x15, 0x18, 0x1E, 0x29, 0x33, 0x55, 0x65])

/-! ## The step -/

/-- R130: when the two bytes at `PC`, the one at the lower address first (the spec's decision D5), decode to `i`, the
step is the rule of `i` on the state with `PC` advanced by 2. -/
def Obligations.StepRunsDecodedInstruction : Prop :=
  ∀ (s : State) (i : Instr), CanFetch s →
    decode [s.readByte s.pc.toNat, s.readByte (s.pc.toNat + 1)] = .ok (i, []) →
    step s = exec i (s.setPc (s.pc + 2#16))

/-- R201: an invalid word advances `PC`, records the fault with the word, and changes nothing else. That the fault is
recorded in the state is the spec's decision D10. -/
def Obligations.StepOnInvalidWordFaults : Prop :=
  ∀ (s : State) (w : Word), CanFetch s →
    w.toNat = 256 * (s.readByte s.pc.toNat).toNat + (s.readByte (s.pc.toNat + 1)).toNat →
    decodeWord w = .error (.invalidInstruction w) →
    ∃ t, step s = .next t ∧ t.fault = some (.invalidInstruction w) ∧ t.pc = s.pc + 2#16 ∧
      Unchanged [.pc, .fault] s t

/-- R54, R55, R204, R205: an odd `PC` faults before the bounds test, a `PC` above 0xFFE faults, and nothing but `FAULT`
changes (the spec's decisions D7, D8 and D30). -/
def Obligations.FetchFaults : Prop :=
  ∀ s : State, s.schedule = [] → s.fault = none →
    (s.pc.toNat % 2 = 1 →
      ∃ t, step s = .next t ∧ t.fault = some (.addressFault .fetchMisaligned s.pc) ∧
        Unchanged [.fault] s t) ∧
    (s.pc.toNat % 2 = 0 → 0xFFE < s.pc.toNat →
      ∃ t, step s = .next t ∧ t.fault = some (.addressFault .fetchBounds s.pc) ∧
        Unchanged [.fault] s t)

/-- R207 (the spec's decision D10): while halted every transition but `Reset` leaves the state as it is. -/
def Obligations.HaltedMachineStandsStill : Prop :=
  ∀ (s : State) (t : Transition), s.fault ≠ none → (∀ image, t ≠ .reset image) →
    fire t s = .next s

/-- What the step does around the core: the first transition of the schedule comes before the core's own `Step` (the
model's choice, log entry 21). -/
def Obligations.ScheduledTransitionMovesFirst : Prop :=
  ∀ (s : State) (t : Transition) (rest : List Transition), s.schedule = t :: rest →
    step s = fire t (s.setSchedule rest)

/-- The instruction that `withFetchWord` places is the one the next step runs (the model's choice of a load, log entry
22). -/
def Obligations.PlacedInstructionRunsNext : Prop :=
  ∀ (s : State) (i : Instr), s.pc.toNat % 2 = 0 → s.pc.toNat ≤ 0xFFE →
    step (s.withFetchWord 16 (encode i).toNat) =
      exec i ((s.withFetchWord 16 (encode i).toNat).setPc (s.pc + 2#16))

/-- A step of the machine always has a next state, unless the scheduled transition is a `Reset` with an oversized image;
then it is refused. -/
def Obligations.StepAlwaysAnswers : Prop :=
  ∀ s : State, (∃ t, step s = .next t) ∨
    ∃ image rest, s.schedule = .reset image :: rest ∧ 3584 < image.length ∧
      step s = .refused (.oversizedImage image.length)

/-! ## Registers, arithmetic, logic, shifts, random -/

/-- R102, R103, R104 (the spec's decision D13): load, add without flag, copy. -/
def Obligations.LoadsAndAddImmediate : Prop :=
  ∀ (x y : RegIx) (nn : Byte) (s : State),
    (∃ t, exec (.ldImm x nn) s = .next t ∧ t.reg x = nn ∧
      RegsUnchanged [x] s t ∧ Unchanged [.v] s t) ∧
    (∃ t, exec (.addImm x nn) s = .next t ∧
      (t.reg x).toNat = ((s.reg x).toNat + nn.toNat) % 256 ∧
      RegsUnchanged [x] s t ∧ Unchanged [.v] s t) ∧
    (∃ t, exec (.ldReg x y) s = .next t ∧ t.reg x = s.reg y ∧
      RegsUnchanged [x] s t ∧ Unchanged [.v] s t)

/-- R105, R106, R107: bit by bit, with no flag. -/
def Obligations.BitwiseOperations : Prop :=
  ∀ (x y : RegIx) (s : State),
    (∃ t, exec (.orReg x y) s = .next t ∧
      (∀ k, k < 8 → (t.reg x).getLsbD k = ((s.reg x).getLsbD k || (s.reg y).getLsbD k)) ∧
      RegsUnchanged [x] s t ∧ Unchanged [.v] s t) ∧
    (∃ t, exec (.andReg x y) s = .next t ∧
      (∀ k, k < 8 → (t.reg x).getLsbD k = ((s.reg x).getLsbD k && (s.reg y).getLsbD k)) ∧
      RegsUnchanged [x] s t ∧ Unchanged [.v] s t) ∧
    (∃ t, exec (.xorReg x y) s = .next t ∧
      (∀ k, k < 8 → (t.reg x).getLsbD k = ((s.reg x).getLsbD k ^^ (s.reg y).getLsbD k)) ∧
      RegsUnchanged [x] s t ∧ Unchanged [.v] s t)

/-- R108: the sum modulo 256 and the carry of the 9-bit sum. That the flag is what `VF` holds when `x` is 0xF is the
spec's decision D12. -/
def Obligations.AddWithCarryFlag : Prop :=
  ∀ (x y : RegIx) (s : State), ∃ t, exec (.addReg x y) s = .next t ∧
    (x ≠ 0xF#4 → t.reg x = s.reg x + s.reg y) ∧
    t.reg 0xF#4 = (if 255 < (s.reg x).toNat + (s.reg y).toNat then 1#8 else 0#8) ∧
    RegsUnchanged [x, 0xF#4] s t ∧ Unchanged [.v] s t

/-- R109, R111: the difference modulo 256 and the no-borrow flag, 1 on equality. The flag written last is the spec's
decision D12. -/
def Obligations.SubtractWithNoBorrowFlag : Prop :=
  ∀ (x y : RegIx) (s : State),
    (∃ t, exec (.subReg x y) s = .next t ∧
      (x ≠ 0xF#4 → t.reg x = s.reg x - s.reg y) ∧
      t.reg 0xF#4 = (if s.reg y ≤ s.reg x then 1#8 else 0#8) ∧
      RegsUnchanged [x, 0xF#4] s t ∧ Unchanged [.v] s t) ∧
    (∃ t, exec (.subn x y) s = .next t ∧
      (x ≠ 0xF#4 → t.reg x = s.reg y - s.reg x) ∧
      t.reg 0xF#4 = (if s.reg x ≤ s.reg y then 1#8 else 0#8) ∧
      RegsUnchanged [x, 0xF#4] s t ∧ Unchanged [.v] s t)

/-- R110, R112: `Vy` shifted by one into `Vx`, the bit shifted out into `VF`. The flag written last is the spec's decision
D12. -/
def Obligations.ShiftsOfVyIntoVx : Prop :=
  ∀ (x y : RegIx) (s : State),
    (∃ t, exec (.shr x y) s = .next t ∧
      (x ≠ 0xF#4 → t.reg x = s.reg y >>> 1) ∧ t.reg 0xF#4 = s.reg y &&& 1#8 ∧
      RegsUnchanged [x, 0xF#4] s t ∧ Unchanged [.v] s t) ∧
    (∃ t, exec (.shl x y) s = .next t ∧
      (x ≠ 0xF#4 → t.reg x = s.reg y <<< 1) ∧ t.reg 0xF#4 = s.reg y >>> 7 ∧
      RegsUnchanged [x, 0xF#4] s t ∧ Unchanged [.v] s t)

/-- R113, R216: the draw under the mask; a byte the host has supplied is used up, and with none supplied the draw is the
free value `Config.rngByte` and the counter advances (the form of the port is the model's, log entry 19; the statement
holds for every free value). -/
def Obligations.RandomByteUnderMask : Prop :=
  ∀ (x : RegIx) (nn : Byte) (s : State), ∃ t, exec (.rnd x nn) s = .next t ∧
    RegsUnchanged [x] s t ∧ Unchanged [.v, .rngQueue, .draws] s t ∧
    (∀ k, k < 8 → nn.getLsbD k = false → (t.reg x).getLsbD k = false) ∧
    ((∃ b rest, s.rngQueue = b :: rest ∧ t.reg x = b &&& nn ∧ t.rngQueue = rest ∧
        t.draws = s.draws) ∨
      (s.rngQueue = [] ∧ t.reg x = Config.rngByte s.draws &&& nn ∧ t.rngQueue = [] ∧
        t.draws = s.draws + 1))

/-! ## Control transfer -/

/-- R131, R134: the target of the two jumps. That `JP V0` writes the whole sum, not cut to 12 bits, is the spec's decision
D27. -/
def Obligations.JumpTargets : Prop :=
  ∀ (nnn : Addr12) (s : State),
    (∃ t, exec (.jp nnn) s = .next t ∧ t.pc.toNat = nnn.toNat ∧ Unchanged [.pc] s t) ∧
    (∃ t, exec (.jpV0 nnn) s = .next t ∧ t.pc.toNat = nnn.toNat + (s.reg 0#4).toNat ∧
      Unchanged [.pc] s t)

/-- R132, R202: below capacity a `CALL` pushes the advanced `PC` and jumps; at capacity it raises `STACK_OVERFLOW` and
changes nothing but `FAULT` (recorded in the state by the spec's decision D10; the array as a list is D33). -/
def Obligations.CallPushesOrOverflows : Prop :=
  ∀ (nnn : Addr12) (s : State),
    (s.sp < s.stackDepth.val → ∃ t, exec (.call nnn) s = .next t ∧ t.stack = s.stack ++ [s.pc] ∧
      t.sp = s.sp + 1 ∧ t.pc.toNat = nnn.toNat ∧ Unchanged [.stack, .pc] s t) ∧
    (s.stackDepth.val ≤ s.sp → ∃ t, exec (.call nnn) s = .next t ∧
      t.fault = some (.stackOverflow nnn) ∧ Unchanged [.fault] s t)

/-- R133, R203: `RET` takes the last entry, to which nothing is added; with an empty stack it raises `STACK_UNDERFLOW` and
changes nothing but `FAULT` (recorded in the state by the spec's decision D10). -/
def Obligations.ReturnPopsOrUnderflows : Prop :=
  ∀ s : State,
    (∀ l a, s.stack = l ++ [a] → ∃ t, exec .ret s = .next t ∧ t.pc = a ∧ t.stack = l ∧
      t.sp + 1 = s.sp ∧ Unchanged [.stack, .pc] s t) ∧
    (s.sp = 0 → ∃ t, exec .ret s = .next t ∧ t.fault = some .stackUnderflow ∧
      Unchanged [.fault] s t)

/-- The source's property S6 for one call: whatever the subroutine did, if it left the stack as the `CALL` made it, the
`RET` resumes at the instruction after the `CALL`. -/
def Obligations.CallThenReturnResumes : Prop :=
  ∀ (nnn : Addr12) (s : State), s.sp < s.stackDepth.val →
    ∃ t, exec (.call nnn) s = .next t ∧
      ∀ u, u.stack = t.stack →
        ∃ w, exec .ret u = .next w ∧ w.pc = s.pc ∧ w.stack = s.stack ∧ w.fault = u.fault

/-- The source's property S6 for any nesting: as many calls as the stack has room for, then as many returns, resume in
reverse order and leave the stack as it was; a call beyond capacity overflows. -/
def Obligations.NestedCallsReturnInReverse : Prop :=
  ∀ (calls : List (Word × Addr12)) (s : State), s.fault = none →
    s.sp + calls.length ≤ s.stackDepth.val →
    ∃ t, callChain calls s = .next t ∧
      (∃ u, returnChain calls.length t = some ((calls.map Prod.fst).reverse, u) ∧
        u.stack = s.stack ∧ u.fault = none) ∧
      (s.sp + calls.length = s.stackDepth.val → ∀ nnn, ∃ w, exec (.call nnn) t = .next w ∧
        w.fault = some (.stackOverflow nnn) ∧ w.stack = t.stack)

/-- R135, R136: skip on a comparison with an immediate. -/
def Obligations.SkipsOnImmediate : Prop :=
  ∀ (x : RegIx) (nn : Byte) (s : State),
    (∃ t, exec (.seImm x nn) s = .next t ∧
      t.pc = (if (s.reg x).toNat = nn.toNat then s.pc + 2#16 else s.pc) ∧ Unchanged [.pc] s t) ∧
    (∃ t, exec (.sneImm x nn) s = .next t ∧
      t.pc = (if (s.reg x).toNat = nn.toNat then s.pc else s.pc + 2#16) ∧ Unchanged [.pc] s t)

/-- R137, R138: skip on a comparison of two registers. -/
def Obligations.SkipsOnRegisters : Prop :=
  ∀ (x y : RegIx) (s : State),
    (∃ t, exec (.seReg x y) s = .next t ∧
      t.pc = (if (s.reg x).toNat = (s.reg y).toNat then s.pc + 2#16 else s.pc) ∧
      Unchanged [.pc] s t) ∧
    (∃ t, exec (.sneReg x y) s = .next t ∧
      t.pc = (if (s.reg x).toNat = (s.reg y).toNat then s.pc else s.pc + 2#16) ∧
      Unchanged [.pc] s t)

/-! ## Timers and keys -/

/-- R150, R151, R152: copies between a register and a timer; the sound timer takes 0 and 1 as 0. -/
def Obligations.TimerRegisters : Prop :=
  ∀ (x : RegIx) (s : State),
    (∃ t, exec (.ldVxDT x) s = .next t ∧ t.reg x = s.dt ∧
      RegsUnchanged [x] s t ∧ Unchanged [.v] s t) ∧
    (∃ t, exec (.ldDTVx x) s = .next t ∧ t.dt = s.reg x ∧ Unchanged [.dt] s t) ∧
    (∃ t, exec (.ldSTVx x) s = .next t ∧
      t.st.toNat = (if (s.reg x).toNat ≤ 1 then 0 else (s.reg x).toNat) ∧ Unchanged [.st] s t)

/-- R154, R155, R156: the two key skips are complements; a value above 0xF names no key (the spec's decision D16). -/
def Obligations.KeySkips : Prop :=
  ∀ (x : RegIx) (s : State),
    (∃ t, exec (.skp x) s = .next t ∧ Unchanged [.pc] s t ∧
      t.pc = (if (s.reg x).toNat ≤ 15 ∧ s.keysHeld.getLsbD (s.reg x).toNat = true
        then s.pc + 2#16 else s.pc)) ∧
    (∃ t, exec (.sknp x) s = .next t ∧ Unchanged [.pc] s t ∧
      t.pc = (if (s.reg x).toNat ≤ 15 ∧ s.keysHeld.getLsbD (s.reg x).toNat = true
        then s.pc else s.pc + 2#16))

/-- R153 (the spec's decision D17): the three cases of the key wait; a waiting execution goes back to its own address. -/
def Obligations.KeyWaitProtocol : Prop :=
  ∀ (x : RegIx) (s : State),
    (s.wait = false → ∃ t, exec (.ldVxK x) s = .next t ∧ t.wait = true ∧ t.key = none ∧
      t.pc = s.pc - 2#16 ∧ Unchanged [.wait, .key, .pc] s t) ∧
    (s.wait = true → s.key = none → ∃ t, exec (.ldVxK x) s = .next t ∧
      t.pc = s.pc - 2#16 ∧ Unchanged [.pc] s t) ∧
    (∀ k, s.wait = true → s.key = some k → ∃ t, exec (.ldVxK x) s = .next t ∧
      (t.reg x).toNat = k.toNat ∧ t.key = none ∧ t.wait = false ∧
      RegsUnchanged [x] s t ∧ Unchanged [.v, .wait, .key] s t)

/-- The source's property S9: with no release, any number of steps leaves the whole state as it is, `PC` at the wait; a
release then advances execution and its code is in the target register (the protocol is the spec's decision D17). Here
`s` is the state between steps. -/
def Obligations.KeyWaitSpinsUntilRelease : Prop :=
  ∀ (x : RegIx) (s : State), CanFetch s → decodeWord (fetchWord s) = .ok (.ldVxK x) →
    s.wait = true → s.key = none →
    (∀ n, Host.Core.run Sys2Proof.core n s = .next s) ∧
    (∀ k, ∃ t u, fire (.keyRelease k) s = .next t ∧ step t = .next u ∧
      (u.reg x).toNat = k.toNat ∧ u.pc = s.pc + 2#16 ∧ u.wait = false ∧ u.key = none)

/-- R211: one count of both timers, with the floor at zero; halted timers stand still (the spec's decision D10). -/
def Obligations.TimerTickCountsDown : Prop :=
  ∀ s : State,
    (s.fault = none → ∃ t, fire .timerTick s = .next t ∧ t.dt.toNat = s.dt.toNat - 1 ∧
      t.st.toNat = s.st.toNat - 1 ∧ Unchanged [.dt, .st] s t) ∧
    (s.fault ≠ none → fire .timerTick s = .next s)

/-- The source's property S8: any number of timer ticks counts down and stays at zero. -/
def Obligations.RepeatedTicksStopAtZero : Prop :=
  ∀ (n : Nat) (s : State), s.fault = none → s.schedule = List.replicate n .timerTick →
    ∃ t, Host.Core.run Sys2Proof.core n s = .next t ∧ t.dt.toNat = s.dt.toNat - n ∧
      t.st.toNat = s.st.toNat - n ∧ Unchanged [.dt, .st, .schedule] s t

/-- R214, R215 (the spec's decisions D17 and D10): a release is latched only while the machine waits and is not halted, the
latest wins; the level of the held keys is independent of it. -/
def Obligations.KeyEvents : Prop :=
  ∀ (s : State) (k : KeyCode) (held : BitVec 16), s.fault = none →
    (s.wait = true → ∃ t, fire (.keyRelease k) s = .next t ∧ t.key = some k ∧
      Unchanged [.key] s t) ∧
    (s.wait = false → fire (.keyRelease k) s = .next s) ∧
    (∃ t, fire (.keysHeld held) s = .next t ∧ t.keysHeld = held ∧ Unchanged [.keysHeld] s t)

/-! ## Index register and memory -/

/-- R170: the index register gets the 12-bit address. -/
def Obligations.LoadIndex : Prop :=
  ∀ (nnn : Addr12) (s : State), ∃ t, exec (.ldI nnn) s = .next t ∧
    t.i.toNat = nnn.toNat ∧ Unchanged [.i] s t

/-- R171, R172: the sum wraps modulo 65536 without a flag (the spec's decision D27); the glyph address uses the whole
register value (the spec's decision D15). -/
def Obligations.IndexArithmetic : Prop :=
  ∀ (x : RegIx) (s : State),
    (∃ t, exec (.addI x) s = .next t ∧
      t.i.toNat = (s.i.toNat + (s.reg x).toNat) % 65536 ∧ Unchanged [.i] s t) ∧
    (∃ t, exec (.ldF x) s = .next t ∧ t.i.toNat = 5 * (s.reg x).toNat ∧ Unchanged [.i] s t)

/-- R173: three bytes from `I`, each a decimal digit, which together give the register's value; no other byte, no register
and not `I` changes (the last by the spec's decision D31). -/
def Obligations.StoreDecimalDigits : Prop :=
  ∀ (x : RegIx) (s : State), s.i.toNat ≤ 0xFFD → ∃ t, exec (.ldB x) s = .next t ∧
    (t.readByte s.i.toNat).toNat ≤ 2 ∧ (t.readByte (s.i.toNat + 1)).toNat ≤ 9 ∧
    (t.readByte (s.i.toNat + 2)).toNat ≤ 9 ∧
    100 * (t.readByte s.i.toNat).toNat + 10 * (t.readByte (s.i.toNat + 1)).toNat +
      (t.readByte (s.i.toNat + 2)).toNat = (s.reg x).toNat ∧
    (∀ a, a < s.i.toNat ∨ s.i.toNat + 2 < a → t.readByte a = s.readByte a) ∧
    Unchanged [.mem] s t

/-- R174: `V[0]` to `V[x]` at `I` to `I + x`, no other byte changed, `I` past them. -/
def Obligations.SaveRegisters : Prop :=
  ∀ (x : RegIx) (s : State), s.i.toNat + x.toNat ≤ 0xFFF → ∃ t, exec (.saveRegs x) s = .next t ∧
    (∀ k : RegIx, k ≤ x → t.readByte (s.i.toNat + k.toNat) = s.reg k) ∧
    (∀ a, a < s.i.toNat ∨ s.i.toNat + x.toNat < a → t.readByte a = s.readByte a) ∧
    t.i.toNat = s.i.toNat + x.toNat + 1 ∧ Unchanged [.mem, .i] s t

/-- R175: `V[0]` to `V[x]` from `I` to `I + x`, no other register changed, `I` past them. -/
def Obligations.RestoreRegisters : Prop :=
  ∀ (x : RegIx) (s : State), s.i.toNat + x.toNat ≤ 0xFFF →
    ∃ t, exec (.restoreRegs x) s = .next t ∧
      (∀ k : RegIx, k ≤ x → t.reg k = s.readByte (s.i.toNat + k.toNat)) ∧
      (∀ k : RegIx, x < k → t.reg k = s.reg k) ∧
      t.i.toNat = s.i.toNat + x.toNat + 1 ∧ Unchanged [.v, .i] s t

/-- The source's property S5: saving and then restoring from the same address, whatever happened to the registers between,
gives back the values saved, and `I` advances by `x + 1` both times. -/
def Obligations.SaveThenRestoreRoundTrip : Prop :=
  ∀ (x : RegIx) (s : State), s.i.toNat + x.toNat ≤ 0xFFF → ∃ t, exec (.saveRegs x) s = .next t ∧
    t.i.toNat = s.i.toNat + x.toNat + 1 ∧
    ∀ u, u.i = s.i → (∀ a, u.readByte a = t.readByte a) →
      ∃ w, exec (.restoreRegs x) u = .next w ∧ w.i = t.i ∧ ∀ k : RegIx, k ≤ x → w.reg k = s.reg k

/-- R53, R204: where the data range of one of the four memory instructions passes 0xFFF, the fault records the lowest
out-of-range address and nothing but `FAULT` changes (the spec's decision D8). -/
def Obligations.DataRangeFaults : Prop :=
  ∀ (i : Instr) (len : Nat) (s : State),
    (∃ x, i = .ldB x ∧ len = 3) ∨ (∃ x, (i = .saveRegs x ∨ i = .restoreRegs x) ∧ len = x.toNat + 1) ∨
      (∃ x y n, i = .drw x y n ∧ len = n.toNat) →
    0 < len → 0xFFF < s.i.toNat + (len - 1) →
    ∃ t a, exec i s = .next t ∧ t.fault = some (.addressFault .dataBounds a) ∧
      a.toNat = max s.i.toNat 0x1000 ∧ Unchanged [.fault] s t

/-- Equal memories are equal data: two memories in canonical form that read the same at every address are one list. -/
def Obligations.CanonicalMemoriesAreEqual : Prop :=
  ∀ m₁ m₂ : Memory, m₁.wf → m₂.wf → (∀ a, m₁.read a = m₂.read a) → m₁ = m₂

/-! ## Display -/

/-- R191: every pixel off, nothing else changed. -/
def Obligations.ClearScreen : Prop :=
  ∀ s : State, ∃ t, exec .cls s = .next t ∧ (∀ x y, t.pixel x y = false) ∧ Unchanged [.disp] s t

/-- R192, R193: pixel by pixel, the display after is the display before, toggled where the clipped sprite has a 1 bit; `VF`
is 1 exactly when a pixel that was on is covered. The geometry is the spec's decision D18, the reading of clipped rows
D19, height 0 D20, the flag written last D12. -/
def Obligations.DrawSpriteTogglesPixels : Prop :=
  ∀ (x y : RegIx) (n : BitVec 4) (s : State), n = 0#4 ∨ s.i.toNat + (n.toNat - 1) ≤ 0xFFF →
    ∃ t, exec (.drw x y n) s = .next t ∧
      (∀ xx yy, xx < 64 → yy < 32 →
        (SpriteCovers s x y n xx yy → t.pixel xx yy = !s.pixel xx yy) ∧
        (¬ SpriteCovers s x y n xx yy → t.pixel xx yy = s.pixel xx yy)) ∧
      ((t.reg 0xF#4 = 1#8 ∧
          ∃ xx yy, xx < 64 ∧ yy < 32 ∧ SpriteCovers s x y n xx yy ∧ s.pixel xx yy = true) ∨
        (t.reg 0xF#4 = 0#8 ∧
          ∀ xx yy, xx < 64 → yy < 32 → SpriteCovers s x y n xx yy → s.pixel xx yy = false)) ∧
      RegsUnchanged [0xF#4] s t ∧ Unchanged [.v, .disp] s t

/-- The source's property S7: drawing the same sprite twice at the same coordinates restores the display, and the second
draw reports a collision exactly when the first one turned a pixel on (the geometry is the spec's decision D18). The
hypotheses on `t` say that the first draw's flag did not change a coordinate. -/
def Obligations.DrawTwiceRestoresDisplay : Prop :=
  ∀ (x y : RegIx) (n : BitVec 4) (s t : State), n = 0#4 ∨ s.i.toNat + (n.toNat - 1) ≤ 0xFFF →
    exec (.drw x y n) s = .next t → t.reg x = s.reg x → t.reg y = s.reg y →
    ∃ u, exec (.drw x y n) t = .next u ∧ u.disp = s.disp ∧
      (u.reg 0xF#4 = 1#8 ↔
        ∃ xx yy, xx < 64 ∧ yy < 32 ∧ s.pixel xx yy = false ∧ t.pixel xx yy = true)

/-! ## Whole-machine rules -/

/-- The state after reset meets every invariant. -/
def Obligations.InvariantsAtReset : Prop :=
  State.reset.Inv ∧ State.reset.PcInv ∧ State.reset.KeyWaitInv

/-- R26, R29, R59: every transition keeps the canonical form of memory, the stack within its depth, and no key latched
while nothing waits. -/
def Obligations.StepKeepsMemoryStackAndKey : Prop :=
  ∀ s t : State, s.Inv → step s = .next t → t.Inv

/-- R23, R132: no transition takes `PC` above 0x10FE, and return addresses stay even and between 0x002 and 0x1000. -/
def Obligations.StepKeepsPcBounds : Prop :=
  ∀ s t : State, s.PcInv → step s = .next t → t.PcInv

/-- R153: while the machine waits for a key the word at `PC` stays a key wait, and the machine is not halted. -/
def Obligations.StepKeepsKeyWaitWord : Prop :=
  ∀ s t : State, s.KeyWaitInv → step s = .next t → t.KeyWaitInv

/-- R206 (b), R205: an instruction that raises a fault has changed nothing else, and each fault has its own raisers (the
precision is the spec's decision D11 where the source does not state it). -/
def Obligations.FaultsArePrecise : Prop :=
  ∀ (i : Instr) (s t : State) (f : Fault), s.fault = none → exec i s = .next t → t.fault = some f →
    Unchanged [.fault] s t ∧
    ((∃ nnn, i = .call nnn ∧ f = .stackOverflow nnn ∧ s.stackDepth.val ≤ s.sp) ∨
      (i = .ret ∧ f = .stackUnderflow ∧ s.sp = 0) ∨
      (∃ a, f = .addressFault .dataBounds a ∧ 0xFFF < a.toNat ∧
        ((∃ x, i = .ldB x) ∨ (∃ x, i = .saveRegs x) ∨ (∃ x, i = .restoreRegs x) ∨
          ∃ x y n, i = .drw x y n)))

/-- R190, R26, R50, R150 to R153, R22: which instructions may change the display, the stack, memory, the timers, the key wait
and the index register; none touches the held keys, the stack's depth or the schedule. -/
def Obligations.OnlyTheseInstructionsWrite : Prop :=
  ∀ (i : Instr) (s t : State), exec i s = .next t →
    (t.disp = s.disp ∨ i = .cls ∨ ∃ x y n, i = .drw x y n) ∧
    (t.stack = s.stack ∨ i = .ret ∨ ∃ nnn, i = .call nnn) ∧
    (t.mem = s.mem ∨ ∃ x, i = .ldB x ∨ i = .saveRegs x) ∧
    (t.dt = s.dt ∨ ∃ x, i = .ldDTVx x) ∧ (t.st = s.st ∨ ∃ x, i = .ldSTVx x) ∧
    ((t.wait = s.wait ∧ t.key = s.key) ∨ ∃ x, i = .ldVxK x) ∧
    (t.i = s.i ∨ (∃ nnn, i = .ldI nnn) ∨
      ∃ x, i = .addI x ∨ i = .ldF x ∨ i = .saveRegs x ∨ i = .restoreRegs x) ∧
    ((t.rngQueue = s.rngQueue ∧ t.draws = s.draws) ∨ ∃ x nn, i = .rnd x nn) ∧
    Field.same s t .keysHeld ∧ Field.same s t .stackDepth ∧ Field.same s t .schedule

/-- R21: 'No other instruction writes VF unless it names VF as its destination': `VF` changes only in the six
flag-writing instructions, in one whose destination is `VF`, and in `LD VF, [I]`. -/
def Obligations.FlagRegisterWriters : Prop :=
  ∀ (i : Instr) (s t : State), exec i s = .next t → t.reg 0xF#4 ≠ s.reg 0xF#4 →
    (∃ x y, i = .addReg x y ∨ i = .subReg x y ∨ i = .subn x y ∨ i = .shr x y ∨ i = .shl x y ∨
      ∃ n, i = .drw x y n) ∨
    (∃ nn, i = .ldImm 0xF#4 nn ∨ i = .addImm 0xF#4 nn ∨ i = .rnd 0xF#4 nn) ∨
    (∃ y, i = .ldReg 0xF#4 y ∨ i = .orReg 0xF#4 y ∨ i = .andReg 0xF#4 y ∨ i = .xorReg 0xF#4 y) ∨
    i = .ldVxDT 0xF#4 ∨ i = .ldVxK 0xF#4 ∨ i = .restoreRegs 0xF#4

/-- R31, R154, R155: only the two key skips see the held keys: any other instruction does the same whatever the level on
the port. -/
def Obligations.HeldKeysReachOnlyKeySkips : Prop :=
  ∀ (i : Instr) (s : State) (held : BitVec 16), (∀ x, i ≠ .skp x ∧ i ≠ .sknp x) →
    exec i (s.withKeysHeld held) = mapNext (fun t => t.withKeysHeld held) (exec i s)

/-- R7: the core's `Step` neither sees nor changes what comes after it. -/
def Obligations.ScheduleDoesNotReachCore : Prop :=
  ∀ (s : State) (l : List Transition),
    coreStep (s.setSchedule l) = mapNext (fun t => t.setSchedule l) (coreStep s)

/-- R212: the machine under the schedule of one frame, `ticks` `Step`s and one `TimerTick`, ends where the frame sequencer
ends, also when a fault ends the frame early (the spec's decision D23); `ticks` is any positive integer (R4, D24). The
schedule is the model's choice (log entry 21). -/
def Obligations.FrameIsRunOfItsSchedule : Prop :=
  ∀ (ticks : Positive) (s : State), s.schedule = [] →
    Host.Core.run Sys2Proof.core (ticks.val + 1) (s.setSchedule (frameSchedule ticks)) = frame ticks s

/-- R250: over any schedule without a `Reset`, between executions of `LD DT, Vx` the delay timer never increases: one
transition that is not that instruction leaves it equal or lower, and lower only in a `TimerTick`. -/
def Obligations.DelayTimerNeverRises : Prop :=
  ∀ (tr : Transition) (s t : State), fire tr s = .next t →
    (∀ image, tr ≠ .reset image) →
    (∀ x, tr = .coreStep → decodeWord (fetchWord s) ≠ .ok (.ldDTVx x)) →
    t.dt = s.dt ∨ (tr = .timerTick ∧ t.dt.toNat + 1 = s.dt.toNat)
end

