-- ==== Sys2Proof/Laws/State.lean ====
section
/-!
SUPPORT. One lemma for each field and each named update of State, so that no proof unfolds a record update.
-/

namespace Sys2Proof.Machine

variable (s : State)

/-! `setReg` -/

@[simp] theorem setReg_v (r : RegIx) (b : Byte) : (s.setReg r b).v = s.v.set r.toNat b r.isLt := rfl
@[simp] theorem setReg_i (r : RegIx) (b : Byte) : (s.setReg r b).i = s.i := rfl
@[simp] theorem setReg_pc (r : RegIx) (b : Byte) : (s.setReg r b).pc = s.pc := rfl
@[simp] theorem setReg_dt (r : RegIx) (b : Byte) : (s.setReg r b).dt = s.dt := rfl
@[simp] theorem setReg_st (r : RegIx) (b : Byte) : (s.setReg r b).st = s.st := rfl
@[simp] theorem setReg_stack (r : RegIx) (b : Byte) : (s.setReg r b).stack = s.stack := rfl
@[simp] theorem setReg_mem (r : RegIx) (b : Byte) : (s.setReg r b).mem = s.mem := rfl
@[simp] theorem setReg_disp (r : RegIx) (b : Byte) : (s.setReg r b).disp = s.disp := rfl
@[simp] theorem setReg_wait (r : RegIx) (b : Byte) : (s.setReg r b).wait = s.wait := rfl
@[simp] theorem setReg_key (r : RegIx) (b : Byte) : (s.setReg r b).key = s.key := rfl
@[simp] theorem setReg_fault (r : RegIx) (b : Byte) : (s.setReg r b).fault = s.fault := rfl
@[simp] theorem setReg_keysHeld (r : RegIx) (b : Byte) : (s.setReg r b).keysHeld = s.keysHeld := rfl
@[simp] theorem setReg_rngQueue (r : RegIx) (b : Byte) : (s.setReg r b).rngQueue = s.rngQueue := rfl
@[simp] theorem setReg_draws (r : RegIx) (b : Byte) : (s.setReg r b).draws = s.draws := rfl
@[simp] theorem setReg_stackDepth (r : RegIx) (b : Byte) : (s.setReg r b).stackDepth = s.stackDepth := rfl
@[simp] theorem setReg_schedule (r : RegIx) (b : Byte) : (s.setReg r b).schedule = s.schedule := rfl
@[simp] theorem setReg_readByte (r : RegIx) (b : Byte) (p : Nat) : (s.setReg r b).readByte p = s.readByte p := rfl

/-! `setI` -/

@[simp] theorem setI_v (a : Word) : (s.setI a).v = s.v := rfl
@[simp] theorem setI_i (a : Word) : (s.setI a).i = a := rfl
@[simp] theorem setI_pc (a : Word) : (s.setI a).pc = s.pc := rfl
@[simp] theorem setI_dt (a : Word) : (s.setI a).dt = s.dt := rfl
@[simp] theorem setI_st (a : Word) : (s.setI a).st = s.st := rfl
@[simp] theorem setI_stack (a : Word) : (s.setI a).stack = s.stack := rfl
@[simp] theorem setI_mem (a : Word) : (s.setI a).mem = s.mem := rfl
@[simp] theorem setI_disp (a : Word) : (s.setI a).disp = s.disp := rfl
@[simp] theorem setI_wait (a : Word) : (s.setI a).wait = s.wait := rfl
@[simp] theorem setI_key (a : Word) : (s.setI a).key = s.key := rfl
@[simp] theorem setI_fault (a : Word) : (s.setI a).fault = s.fault := rfl
@[simp] theorem setI_keysHeld (a : Word) : (s.setI a).keysHeld = s.keysHeld := rfl
@[simp] theorem setI_rngQueue (a : Word) : (s.setI a).rngQueue = s.rngQueue := rfl
@[simp] theorem setI_draws (a : Word) : (s.setI a).draws = s.draws := rfl
@[simp] theorem setI_stackDepth (a : Word) : (s.setI a).stackDepth = s.stackDepth := rfl
@[simp] theorem setI_schedule (a : Word) : (s.setI a).schedule = s.schedule := rfl
@[simp] theorem setI_reg (a : Word) (q : RegIx) : (s.setI a).reg q = s.reg q := rfl
@[simp] theorem setI_readByte (a : Word) (p : Nat) : (s.setI a).readByte p = s.readByte p := rfl

/-! `setPc` -/

@[simp] theorem setPc_v (a : Word) : (s.setPc a).v = s.v := rfl
@[simp] theorem setPc_i (a : Word) : (s.setPc a).i = s.i := rfl
@[simp] theorem setPc_pc (a : Word) : (s.setPc a).pc = a := rfl
@[simp] theorem setPc_dt (a : Word) : (s.setPc a).dt = s.dt := rfl
@[simp] theorem setPc_st (a : Word) : (s.setPc a).st = s.st := rfl
@[simp] theorem setPc_stack (a : Word) : (s.setPc a).stack = s.stack := rfl
@[simp] theorem setPc_mem (a : Word) : (s.setPc a).mem = s.mem := rfl
@[simp] theorem setPc_disp (a : Word) : (s.setPc a).disp = s.disp := rfl
@[simp] theorem setPc_wait (a : Word) : (s.setPc a).wait = s.wait := rfl
@[simp] theorem setPc_key (a : Word) : (s.setPc a).key = s.key := rfl
@[simp] theorem setPc_fault (a : Word) : (s.setPc a).fault = s.fault := rfl
@[simp] theorem setPc_keysHeld (a : Word) : (s.setPc a).keysHeld = s.keysHeld := rfl
@[simp] theorem setPc_rngQueue (a : Word) : (s.setPc a).rngQueue = s.rngQueue := rfl
@[simp] theorem setPc_draws (a : Word) : (s.setPc a).draws = s.draws := rfl
@[simp] theorem setPc_stackDepth (a : Word) : (s.setPc a).stackDepth = s.stackDepth := rfl
@[simp] theorem setPc_schedule (a : Word) : (s.setPc a).schedule = s.schedule := rfl
@[simp] theorem setPc_reg (a : Word) (q : RegIx) : (s.setPc a).reg q = s.reg q := rfl
@[simp] theorem setPc_readByte (a : Word) (p : Nat) : (s.setPc a).readByte p = s.readByte p := rfl

/-! `setDt` -/

@[simp] theorem setDt_v (b : Byte) : (s.setDt b).v = s.v := rfl
@[simp] theorem setDt_i (b : Byte) : (s.setDt b).i = s.i := rfl
@[simp] theorem setDt_pc (b : Byte) : (s.setDt b).pc = s.pc := rfl
@[simp] theorem setDt_dt (b : Byte) : (s.setDt b).dt = b := rfl
@[simp] theorem setDt_st (b : Byte) : (s.setDt b).st = s.st := rfl
@[simp] theorem setDt_stack (b : Byte) : (s.setDt b).stack = s.stack := rfl
@[simp] theorem setDt_mem (b : Byte) : (s.setDt b).mem = s.mem := rfl
@[simp] theorem setDt_disp (b : Byte) : (s.setDt b).disp = s.disp := rfl
@[simp] theorem setDt_wait (b : Byte) : (s.setDt b).wait = s.wait := rfl
@[simp] theorem setDt_key (b : Byte) : (s.setDt b).key = s.key := rfl
@[simp] theorem setDt_fault (b : Byte) : (s.setDt b).fault = s.fault := rfl
@[simp] theorem setDt_keysHeld (b : Byte) : (s.setDt b).keysHeld = s.keysHeld := rfl
@[simp] theorem setDt_rngQueue (b : Byte) : (s.setDt b).rngQueue = s.rngQueue := rfl
@[simp] theorem setDt_draws (b : Byte) : (s.setDt b).draws = s.draws := rfl
@[simp] theorem setDt_stackDepth (b : Byte) : (s.setDt b).stackDepth = s.stackDepth := rfl
@[simp] theorem setDt_schedule (b : Byte) : (s.setDt b).schedule = s.schedule := rfl
@[simp] theorem setDt_reg (b : Byte) (q : RegIx) : (s.setDt b).reg q = s.reg q := rfl
@[simp] theorem setDt_readByte (b : Byte) (p : Nat) : (s.setDt b).readByte p = s.readByte p := rfl

/-! `setSt` -/

@[simp] theorem setSt_v (b : Byte) : (s.setSt b).v = s.v := rfl
@[simp] theorem setSt_i (b : Byte) : (s.setSt b).i = s.i := rfl
@[simp] theorem setSt_pc (b : Byte) : (s.setSt b).pc = s.pc := rfl
@[simp] theorem setSt_dt (b : Byte) : (s.setSt b).dt = s.dt := rfl
@[simp] theorem setSt_st (b : Byte) : (s.setSt b).st = b := rfl
@[simp] theorem setSt_stack (b : Byte) : (s.setSt b).stack = s.stack := rfl
@[simp] theorem setSt_mem (b : Byte) : (s.setSt b).mem = s.mem := rfl
@[simp] theorem setSt_disp (b : Byte) : (s.setSt b).disp = s.disp := rfl
@[simp] theorem setSt_wait (b : Byte) : (s.setSt b).wait = s.wait := rfl
@[simp] theorem setSt_key (b : Byte) : (s.setSt b).key = s.key := rfl
@[simp] theorem setSt_fault (b : Byte) : (s.setSt b).fault = s.fault := rfl
@[simp] theorem setSt_keysHeld (b : Byte) : (s.setSt b).keysHeld = s.keysHeld := rfl
@[simp] theorem setSt_rngQueue (b : Byte) : (s.setSt b).rngQueue = s.rngQueue := rfl
@[simp] theorem setSt_draws (b : Byte) : (s.setSt b).draws = s.draws := rfl
@[simp] theorem setSt_stackDepth (b : Byte) : (s.setSt b).stackDepth = s.stackDepth := rfl
@[simp] theorem setSt_schedule (b : Byte) : (s.setSt b).schedule = s.schedule := rfl
@[simp] theorem setSt_reg (b : Byte) (q : RegIx) : (s.setSt b).reg q = s.reg q := rfl
@[simp] theorem setSt_readByte (b : Byte) (p : Nat) : (s.setSt b).readByte p = s.readByte p := rfl

/-! `setWaitKey` -/

@[simp] theorem setWaitKey_v (w : Bool) (k : Option KeyCode) : (s.setWaitKey w k).v = s.v := rfl
@[simp] theorem setWaitKey_i (w : Bool) (k : Option KeyCode) : (s.setWaitKey w k).i = s.i := rfl
@[simp] theorem setWaitKey_pc (w : Bool) (k : Option KeyCode) : (s.setWaitKey w k).pc = s.pc := rfl
@[simp] theorem setWaitKey_dt (w : Bool) (k : Option KeyCode) : (s.setWaitKey w k).dt = s.dt := rfl
@[simp] theorem setWaitKey_st (w : Bool) (k : Option KeyCode) : (s.setWaitKey w k).st = s.st := rfl
@[simp] theorem setWaitKey_stack (w : Bool) (k : Option KeyCode) : (s.setWaitKey w k).stack = s.stack := rfl
@[simp] theorem setWaitKey_mem (w : Bool) (k : Option KeyCode) : (s.setWaitKey w k).mem = s.mem := rfl
@[simp] theorem setWaitKey_disp (w : Bool) (k : Option KeyCode) : (s.setWaitKey w k).disp = s.disp := rfl
@[simp] theorem setWaitKey_wait (w : Bool) (k : Option KeyCode) : (s.setWaitKey w k).wait = w := rfl
@[simp] theorem setWaitKey_key (w : Bool) (k : Option KeyCode) : (s.setWaitKey w k).key = k := rfl
@[simp] theorem setWaitKey_fault (w : Bool) (k : Option KeyCode) : (s.setWaitKey w k).fault = s.fault := rfl
@[simp] theorem setWaitKey_keysHeld (w : Bool) (k : Option KeyCode) : (s.setWaitKey w k).keysHeld = s.keysHeld := rfl
@[simp] theorem setWaitKey_rngQueue (w : Bool) (k : Option KeyCode) : (s.setWaitKey w k).rngQueue = s.rngQueue := rfl
@[simp] theorem setWaitKey_draws (w : Bool) (k : Option KeyCode) : (s.setWaitKey w k).draws = s.draws := rfl
@[simp] theorem setWaitKey_stackDepth (w : Bool) (k : Option KeyCode) : (s.setWaitKey w k).stackDepth = s.stackDepth := rfl
@[simp] theorem setWaitKey_schedule (w : Bool) (k : Option KeyCode) : (s.setWaitKey w k).schedule = s.schedule := rfl
@[simp] theorem setWaitKey_reg (w : Bool) (k : Option KeyCode) (q : RegIx) : (s.setWaitKey w k).reg q = s.reg q := rfl
@[simp] theorem setWaitKey_readByte (w : Bool) (k : Option KeyCode) (p : Nat) : (s.setWaitKey w k).readByte p = s.readByte p := rfl

/-! `setDisp` -/

@[simp] theorem setDisp_v (d : Display) : (s.setDisp d).v = s.v := rfl
@[simp] theorem setDisp_i (d : Display) : (s.setDisp d).i = s.i := rfl
@[simp] theorem setDisp_pc (d : Display) : (s.setDisp d).pc = s.pc := rfl
@[simp] theorem setDisp_dt (d : Display) : (s.setDisp d).dt = s.dt := rfl
@[simp] theorem setDisp_st (d : Display) : (s.setDisp d).st = s.st := rfl
@[simp] theorem setDisp_stack (d : Display) : (s.setDisp d).stack = s.stack := rfl
@[simp] theorem setDisp_mem (d : Display) : (s.setDisp d).mem = s.mem := rfl
@[simp] theorem setDisp_disp (d : Display) : (s.setDisp d).disp = d := rfl
@[simp] theorem setDisp_wait (d : Display) : (s.setDisp d).wait = s.wait := rfl
@[simp] theorem setDisp_key (d : Display) : (s.setDisp d).key = s.key := rfl
@[simp] theorem setDisp_fault (d : Display) : (s.setDisp d).fault = s.fault := rfl
@[simp] theorem setDisp_keysHeld (d : Display) : (s.setDisp d).keysHeld = s.keysHeld := rfl
@[simp] theorem setDisp_rngQueue (d : Display) : (s.setDisp d).rngQueue = s.rngQueue := rfl
@[simp] theorem setDisp_draws (d : Display) : (s.setDisp d).draws = s.draws := rfl
@[simp] theorem setDisp_stackDepth (d : Display) : (s.setDisp d).stackDepth = s.stackDepth := rfl
@[simp] theorem setDisp_schedule (d : Display) : (s.setDisp d).schedule = s.schedule := rfl
@[simp] theorem setDisp_reg (d : Display) (q : RegIx) : (s.setDisp d).reg q = s.reg q := rfl
@[simp] theorem setDisp_readByte (d : Display) (p : Nat) : (s.setDisp d).readByte p = s.readByte p := rfl

/-! `setStack` -/

@[simp] theorem setStack_v (l : List Word) : (s.setStack l).v = s.v := rfl
@[simp] theorem setStack_i (l : List Word) : (s.setStack l).i = s.i := rfl
@[simp] theorem setStack_pc (l : List Word) : (s.setStack l).pc = s.pc := rfl
@[simp] theorem setStack_dt (l : List Word) : (s.setStack l).dt = s.dt := rfl
@[simp] theorem setStack_st (l : List Word) : (s.setStack l).st = s.st := rfl
@[simp] theorem setStack_stack (l : List Word) : (s.setStack l).stack = l := rfl
@[simp] theorem setStack_mem (l : List Word) : (s.setStack l).mem = s.mem := rfl
@[simp] theorem setStack_disp (l : List Word) : (s.setStack l).disp = s.disp := rfl
@[simp] theorem setStack_wait (l : List Word) : (s.setStack l).wait = s.wait := rfl
@[simp] theorem setStack_key (l : List Word) : (s.setStack l).key = s.key := rfl
@[simp] theorem setStack_fault (l : List Word) : (s.setStack l).fault = s.fault := rfl
@[simp] theorem setStack_keysHeld (l : List Word) : (s.setStack l).keysHeld = s.keysHeld := rfl
@[simp] theorem setStack_rngQueue (l : List Word) : (s.setStack l).rngQueue = s.rngQueue := rfl
@[simp] theorem setStack_draws (l : List Word) : (s.setStack l).draws = s.draws := rfl
@[simp] theorem setStack_stackDepth (l : List Word) : (s.setStack l).stackDepth = s.stackDepth := rfl
@[simp] theorem setStack_schedule (l : List Word) : (s.setStack l).schedule = s.schedule := rfl
@[simp] theorem setStack_reg (l : List Word) (q : RegIx) : (s.setStack l).reg q = s.reg q := rfl
@[simp] theorem setStack_readByte (l : List Word) (p : Nat) : (s.setStack l).readByte p = s.readByte p := rfl

/-! `setFault` -/

@[simp] theorem setFault_v (f : Fault) : (s.setFault f).v = s.v := rfl
@[simp] theorem setFault_i (f : Fault) : (s.setFault f).i = s.i := rfl
@[simp] theorem setFault_pc (f : Fault) : (s.setFault f).pc = s.pc := rfl
@[simp] theorem setFault_dt (f : Fault) : (s.setFault f).dt = s.dt := rfl
@[simp] theorem setFault_st (f : Fault) : (s.setFault f).st = s.st := rfl
@[simp] theorem setFault_stack (f : Fault) : (s.setFault f).stack = s.stack := rfl
@[simp] theorem setFault_mem (f : Fault) : (s.setFault f).mem = s.mem := rfl
@[simp] theorem setFault_disp (f : Fault) : (s.setFault f).disp = s.disp := rfl
@[simp] theorem setFault_wait (f : Fault) : (s.setFault f).wait = s.wait := rfl
@[simp] theorem setFault_key (f : Fault) : (s.setFault f).key = s.key := rfl
@[simp] theorem setFault_fault (f : Fault) : (s.setFault f).fault = some f := rfl
@[simp] theorem setFault_keysHeld (f : Fault) : (s.setFault f).keysHeld = s.keysHeld := rfl
@[simp] theorem setFault_rngQueue (f : Fault) : (s.setFault f).rngQueue = s.rngQueue := rfl
@[simp] theorem setFault_draws (f : Fault) : (s.setFault f).draws = s.draws := rfl
@[simp] theorem setFault_stackDepth (f : Fault) : (s.setFault f).stackDepth = s.stackDepth := rfl
@[simp] theorem setFault_schedule (f : Fault) : (s.setFault f).schedule = s.schedule := rfl
@[simp] theorem setFault_reg (f : Fault) (q : RegIx) : (s.setFault f).reg q = s.reg q := rfl
@[simp] theorem setFault_readByte (f : Fault) (p : Nat) : (s.setFault f).readByte p = s.readByte p := rfl

/-! `setSchedule` -/

@[simp] theorem setSchedule_v (l : List Transition) : (s.setSchedule l).v = s.v := rfl
@[simp] theorem setSchedule_i (l : List Transition) : (s.setSchedule l).i = s.i := rfl
@[simp] theorem setSchedule_pc (l : List Transition) : (s.setSchedule l).pc = s.pc := rfl
@[simp] theorem setSchedule_dt (l : List Transition) : (s.setSchedule l).dt = s.dt := rfl
@[simp] theorem setSchedule_st (l : List Transition) : (s.setSchedule l).st = s.st := rfl
@[simp] theorem setSchedule_stack (l : List Transition) : (s.setSchedule l).stack = s.stack := rfl
@[simp] theorem setSchedule_mem (l : List Transition) : (s.setSchedule l).mem = s.mem := rfl
@[simp] theorem setSchedule_disp (l : List Transition) : (s.setSchedule l).disp = s.disp := rfl
@[simp] theorem setSchedule_wait (l : List Transition) : (s.setSchedule l).wait = s.wait := rfl
@[simp] theorem setSchedule_key (l : List Transition) : (s.setSchedule l).key = s.key := rfl
@[simp] theorem setSchedule_fault (l : List Transition) : (s.setSchedule l).fault = s.fault := rfl
@[simp] theorem setSchedule_keysHeld (l : List Transition) : (s.setSchedule l).keysHeld = s.keysHeld := rfl
@[simp] theorem setSchedule_rngQueue (l : List Transition) : (s.setSchedule l).rngQueue = s.rngQueue := rfl
@[simp] theorem setSchedule_draws (l : List Transition) : (s.setSchedule l).draws = s.draws := rfl
@[simp] theorem setSchedule_stackDepth (l : List Transition) : (s.setSchedule l).stackDepth = s.stackDepth := rfl
@[simp] theorem setSchedule_schedule (l : List Transition) : (s.setSchedule l).schedule = l := rfl
@[simp] theorem setSchedule_reg (l : List Transition) (q : RegIx) : (s.setSchedule l).reg q = s.reg q := rfl
@[simp] theorem setSchedule_readByte (l : List Transition) (p : Nat) : (s.setSchedule l).readByte p = s.readByte p := rfl

/-! `writeByte` -/

@[simp] theorem writeByte_v (a : Nat) (b : Byte) : (s.writeByte a b).v = s.v := rfl
@[simp] theorem writeByte_i (a : Nat) (b : Byte) : (s.writeByte a b).i = s.i := rfl
@[simp] theorem writeByte_pc (a : Nat) (b : Byte) : (s.writeByte a b).pc = s.pc := rfl
@[simp] theorem writeByte_dt (a : Nat) (b : Byte) : (s.writeByte a b).dt = s.dt := rfl
@[simp] theorem writeByte_st (a : Nat) (b : Byte) : (s.writeByte a b).st = s.st := rfl
@[simp] theorem writeByte_stack (a : Nat) (b : Byte) : (s.writeByte a b).stack = s.stack := rfl
@[simp] theorem writeByte_mem (a : Nat) (b : Byte) : (s.writeByte a b).mem = s.mem.write a b := rfl
@[simp] theorem writeByte_disp (a : Nat) (b : Byte) : (s.writeByte a b).disp = s.disp := rfl
@[simp] theorem writeByte_wait (a : Nat) (b : Byte) : (s.writeByte a b).wait = s.wait := rfl
@[simp] theorem writeByte_key (a : Nat) (b : Byte) : (s.writeByte a b).key = s.key := rfl
@[simp] theorem writeByte_fault (a : Nat) (b : Byte) : (s.writeByte a b).fault = s.fault := rfl
@[simp] theorem writeByte_keysHeld (a : Nat) (b : Byte) : (s.writeByte a b).keysHeld = s.keysHeld := rfl
@[simp] theorem writeByte_rngQueue (a : Nat) (b : Byte) : (s.writeByte a b).rngQueue = s.rngQueue := rfl
@[simp] theorem writeByte_draws (a : Nat) (b : Byte) : (s.writeByte a b).draws = s.draws := rfl
@[simp] theorem writeByte_stackDepth (a : Nat) (b : Byte) : (s.writeByte a b).stackDepth = s.stackDepth := rfl
@[simp] theorem writeByte_schedule (a : Nat) (b : Byte) : (s.writeByte a b).schedule = s.schedule := rfl
@[simp] theorem writeByte_reg (a : Nat) (b : Byte) (q : RegIx) : (s.writeByte a b).reg q = s.reg q := rfl

/-! Updates made of one of these. -/

theorem advancePc_eq : s.advancePc = s.setPc (s.pc + 2#16) := rfl
theorem rewindPc_eq : s.rewindPc = s.setPc (s.pc - 2#16) := rfl
theorem push_eq (a : Word) : s.push a = s.setStack (s.stack ++ [a]) := rfl
theorem setFlag_eq (c : Bool) : s.setFlag c = s.setReg flagReg (flagByte c) := rfl
theorem setResultThenFlag_eq (x : RegIx) (b : Byte) (c : Bool) :
    s.setResultThenFlag x b c = (s.setReg x b).setReg flagReg (flagByte c) := rfl
theorem advanceI_eq (n : Nat) : s.advanceI n = s.setI (BitVec.ofNat 16 (s.i.toNat + n)) := rfl

/-- Reading a register after one was written. -/
theorem reg_setReg (x r : RegIx) (b : Byte) : (s.setReg x b).reg r = if r = x then b else s.reg r := by
  simp only [State.reg, State.setReg, Vector.getElem_set]
  by_cases h : r = x
  · simp [h]
  · rw [if_neg (fun e => h (BitVec.eq_of_toNat_eq e.symm)), if_neg h]

@[simp] theorem reg_setReg_same (x : RegIx) (b : Byte) : (s.setReg x b).reg x = b := by simp [reg_setReg]

theorem reg_setReg_other {x r : RegIx} (h : r ≠ x) (b : Byte) : (s.setReg x b).reg r = s.reg r := by
  simp [reg_setReg, h]

end Sys2Proof.Machine
end

