-- ==== Sys2Proof/Laws/Memory.lean ====
section
/-!
SUPPORT. What the memory operations do: a read after a write, and that each operation keeps the canonical form.
-/

namespace Sys2Proof.Machine

/-! ## Reading back -/

theorem read_insert (m : Memory) (a p : Nat) (b : Byte) :
    (m.insert a b).read p = if p = a then b else m.read p := by
  induction m with
  | nil =>
    by_cases h : a = p
    · simp [Memory.insert, Memory.read, h]
    · simp [Memory.insert, Memory.read, h, Ne.symm h]
  | cons c rest ih =>
    simp only [Memory.insert]
    split
    · simp only [Memory.read, eq_comm (a := a)]
    · split
      · next h =>
        subst h
        by_cases hp : p = c.1
        · simp [Memory.read, hp]
        · simp [Memory.read, hp, Ne.symm hp]
      · next h =>
        simp only [Memory.read, ih]
        by_cases hc : c.1 = p
        · simp [hc, show ¬ p = a from fun e => h (e.symm.trans hc.symm)]
        · simp [hc]

theorem read_erase (m : Memory) (a p : Nat) :
    (m.erase a).read p = if p = a then initialByte a else m.read p := by
  induction m with
  | nil => by_cases h : p = a <;> simp [Memory.erase, Memory.read, h]
  | cons c rest ih =>
    simp only [Memory.erase] at ih ⊢
    by_cases hca : c.1 = a
    · simp only [List.filter_cons, hca, bne_self_eq_false, Bool.false_eq_true, if_false, ih]
      by_cases hp : p = a
      · simp [hp]
      · simp [hp, Memory.read, hca, Ne.symm hp]
    · simp only [List.filter_cons, bne_iff_ne, ne_eq, hca, not_false_eq_true, if_true, Memory.read, ih]
      by_cases hc : c.1 = p
      · simp [hc, show ¬ p = a from fun e => hca (hc.trans e)]
      · simp [hc]

theorem read_write (m : Memory) {a : Nat} (ha : a < Config.memSize) (p : Nat) (b : Byte) :
    (m.write a b).read p = if p = a then b else m.read p := by
  simp only [Memory.write, ha, if_true]
  split
  · next h => rw [read_erase, ← h]
  · exact read_insert m a p b

/-- A read after a store of one byte (spec/20_memory.md R59 (c)). -/
theorem readByte_writeByte (s : State) {a : Nat} (ha : a < Config.memSize) (p : Nat) (b : Byte) :
    (s.writeByte a b).readByte p = if p = a then b else s.readByte p :=
  read_write s.mem ha p b

/-! ## Runs of bytes -/

/-- Storing bytes changes memory and nothing else. -/
theorem writeBytes_eq (s : State) (a : Nat) (l : List Byte) :
    ∃ m, s.writeBytes a l = { s with mem := m } := by
  induction l generalizing s a with
  | nil => exact ⟨s.mem, rfl⟩
  | cons b rest ih =>
    obtain ⟨m, hm⟩ := ih (s.writeByte a b) (a + 1)
    exact ⟨m, hm⟩

theorem readByte_writeBytes (s : State) (a : Nat) (l : List Byte) (p : Nat)
    (h : a + l.length ≤ Config.memSize) :
    (s.writeBytes a l).readByte p =
      if a ≤ p ∧ p < a + l.length then l.getD (p - a) 0#8 else s.readByte p := by
  induction l generalizing s a with
  | nil => simp [State.writeBytes, show ¬ (a ≤ p ∧ p < a) by omega]
  | cons b rest ih =>
    simp only [List.length_cons] at h ⊢
    rw [State.writeBytes, ih _ _ (by omega), readByte_writeByte s (by omega)]
    by_cases h1 : a + 1 ≤ p ∧ p < a + 1 + rest.length
    · rw [if_pos h1, if_pos (by omega), show p - a = (p - (a + 1)) + 1 by omega]
      rfl
    · rw [if_neg h1]
      by_cases h2 : p = a
      · subst h2
        simp
      · rw [if_neg h2, if_neg (by omega)]

/-! ## The canonical form -/

theorem wf_nil : Memory.wf [] := by simp [Memory.wf]

theorem mem_insert {m : Memory} {a : Nat} {b : Byte} {c : Host.Cell} (h : c ∈ m.insert a b) :
    c = (a, b) ∨ c ∈ m := by
  induction m with
  | nil => simpa [Memory.insert] using h
  | cons d rest ih =>
    simp only [Memory.insert] at h
    split at h
    · simpa using h
    · split at h
      · rcases List.mem_cons.mp h with h | h
        · exact .inl h
        · exact .inr (List.mem_cons_of_mem _ h)
      · rcases List.mem_cons.mp h with h | h
        · exact .inr (h ▸ List.mem_cons_self)
        · exact (ih h).imp_right (List.mem_cons_of_mem _)

theorem insert_wf {m : Memory} (hm : m.wf) {a : Nat} {b : Byte} (ha : a < Config.memSize)
    (hb : b ≠ initialByte a) : (m.insert a b).wf := by
  refine ⟨?_, fun c hc => ?_⟩
  · induction m with
    | nil => simp [Memory.insert]
    | cons d rest ih =>
      obtain ⟨hd, hr⟩ := List.pairwise_cons.mp hm.1
      have hrest : Memory.wf rest := ⟨hr, fun c hc => hm.2 c (List.mem_cons_of_mem _ hc)⟩
      simp only [Memory.insert]
      split
      · next h =>
        refine List.pairwise_cons.mpr ⟨fun c hc => ?_, hm.1⟩
        rcases List.mem_cons.mp hc with rfl | hc
        · exact h
        · exact Nat.lt_trans h (hd c hc)
      · split
        · next h => exact List.pairwise_cons.mpr ⟨fun c hc => h ▸ hd c hc, hr⟩
        · next h1 h2 =>
          refine List.pairwise_cons.mpr ⟨fun c hc => ?_, ih hrest⟩
          rcases mem_insert hc with rfl | hc
          · exact Nat.lt_of_le_of_ne (Nat.le_of_not_lt h1) (Ne.symm h2)
          · exact hd c hc
  · rcases mem_insert hc with rfl | hc
    · exact ⟨ha, hb⟩
    · exact hm.2 c hc

theorem erase_wf {m : Memory} (hm : m.wf) (a : Nat) : (m.erase a).wf :=
  ⟨hm.1.filter _, fun c hc => hm.2 c (List.mem_of_mem_filter hc)⟩

/-- Every store keeps the canonical form. -/
theorem write_wf {m : Memory} (hm : m.wf) (a : Nat) (b : Byte) : (m.write a b).wf := by
  unfold Memory.write
  split
  · next ha =>
    split
    · exact erase_wf hm a
    · next hb => exact insert_wf hm ha hb
  · exact hm

theorem writeBytes_wf {s : State} (hm : s.mem.wf) (a : Nat) (l : List Byte) :
    (s.writeBytes a l).mem.wf := by
  induction l generalizing s a with
  | nil => exact hm
  | cons b rest ih => exact ih (write_wf hm a b) (a + 1)

/-- The memory after reset has the canonical form. -/
theorem reset_mem_wf : State.reset.mem.wf := wf_nil

end Sys2Proof.Machine
end

