-- ==== Sys2Proof/Laws/Ops.lean ====
section
/-!
SUPPORT. What the shared operations do: the data-range check, runs of stored and loaded bytes, skips, draws from the
random port, and the fetch.
-/

namespace Sys2Proof.Machine

/-! ## The data-range check (spec/20_memory.md R53) -/

theorem dataFault_none {s : State} {len : Nat} (h : len = 0 ∨ s.i.toNat + (len - 1) ≤ 0xFFF) :
    s.dataFault? len = none := by
  unfold State.dataFault? State.ea Config.memSize
  rw [if_neg (by omega)]

theorem dataFault_some {s : State} {len : Nat} (hl : 0 < len)
    (h : 0xFFF < s.i.toNat + (len - 1)) :
    s.dataFault? len = some (.addressFault .dataBounds (lowestOutOfRange s.i)) := by
  unfold State.dataFault? State.ea Config.memSize
  rw [if_pos (by omega)]

theorem lowestOutOfRange_toNat (a : Word) : (lowestOutOfRange a).toNat = max a.toNat 0x1000 := by
  unfold lowestOutOfRange Config.memSize
  split
  · simp; omega
  · omega

/-- All that an instruction with a data range can do: its effect, when the whole range is inside memory, or the fault
with no effect. -/
theorem withDataRange_cases (len : Nat) (effect : State → State) (s : State) :
    (withDataRange len effect s = .next (effect s) ∧
      (len = 0 ∨ s.i.toNat + (len - 1) ≤ 0xFFF)) ∨
    (withDataRange len effect s =
        .next (s.setFault (.addressFault .dataBounds (lowestOutOfRange s.i))) ∧
      0 < len ∧ 0xFFF < s.i.toNat + (len - 1)) := by
  by_cases h : len = 0 ∨ s.i.toNat + (len - 1) ≤ 0xFFF
  · exact .inl ⟨by simp [withDataRange, dataFault_none h], h⟩
  · have h1 : 0 < len := by omega
    have h2 : 0xFFF < s.i.toNat + (len - 1) := by omega
    exact .inr ⟨by simp [withDataRange, dataFault_some h1 h2, raise], h1, h2⟩

theorem withDataRange_ok {len : Nat} {s : State} (effect : State → State)
    (h : len = 0 ∨ s.i.toNat + (len - 1) ≤ 0xFFF) :
    withDataRange len effect s = .next (effect s) := by
  simp [withDataRange, dataFault_none h]

/-! ## Runs of bytes -/

section Bytes
variable (s : State) (a : Nat) (l : List Byte)

@[simp] theorem writeBytes_v : (s.writeBytes a l).v = s.v := by
  obtain ⟨m, h⟩ := writeBytes_eq s a l; rw [h]
@[simp] theorem writeBytes_i : (s.writeBytes a l).i = s.i := by
  obtain ⟨m, h⟩ := writeBytes_eq s a l; rw [h]
@[simp] theorem writeBytes_pc : (s.writeBytes a l).pc = s.pc := by
  obtain ⟨m, h⟩ := writeBytes_eq s a l; rw [h]
@[simp] theorem writeBytes_dt : (s.writeBytes a l).dt = s.dt := by
  obtain ⟨m, h⟩ := writeBytes_eq s a l; rw [h]
@[simp] theorem writeBytes_st : (s.writeBytes a l).st = s.st := by
  obtain ⟨m, h⟩ := writeBytes_eq s a l; rw [h]
@[simp] theorem writeBytes_stack : (s.writeBytes a l).stack = s.stack := by
  obtain ⟨m, h⟩ := writeBytes_eq s a l; rw [h]
@[simp] theorem writeBytes_disp : (s.writeBytes a l).disp = s.disp := by
  obtain ⟨m, h⟩ := writeBytes_eq s a l; rw [h]
@[simp] theorem writeBytes_wait : (s.writeBytes a l).wait = s.wait := by
  obtain ⟨m, h⟩ := writeBytes_eq s a l; rw [h]
@[simp] theorem writeBytes_key : (s.writeBytes a l).key = s.key := by
  obtain ⟨m, h⟩ := writeBytes_eq s a l; rw [h]
@[simp] theorem writeBytes_fault : (s.writeBytes a l).fault = s.fault := by
  obtain ⟨m, h⟩ := writeBytes_eq s a l; rw [h]
@[simp] theorem writeBytes_keysHeld : (s.writeBytes a l).keysHeld = s.keysHeld := by
  obtain ⟨m, h⟩ := writeBytes_eq s a l; rw [h]
@[simp] theorem writeBytes_rngQueue : (s.writeBytes a l).rngQueue = s.rngQueue := by
  obtain ⟨m, h⟩ := writeBytes_eq s a l; rw [h]
@[simp] theorem writeBytes_draws : (s.writeBytes a l).draws = s.draws := by
  obtain ⟨m, h⟩ := writeBytes_eq s a l; rw [h]
@[simp] theorem writeBytes_stackDepth : (s.writeBytes a l).stackDepth = s.stackDepth := by
  obtain ⟨m, h⟩ := writeBytes_eq s a l; rw [h]
@[simp] theorem writeBytes_schedule : (s.writeBytes a l).schedule = s.schedule := by
  obtain ⟨m, h⟩ := writeBytes_eq s a l; rw [h]

@[simp] theorem writeBytes_reg (r : RegIx) : (s.writeBytes a l).reg r = s.reg r := by
  simp [State.reg]

end Bytes

@[simp] theorem bcdDigits_length (b : Byte) : (bcdDigits b).length = 3 := by
  simp [bcdDigits]

@[simp] theorem firstRegs_length (s : State) (n : Nat) : (s.firstRegs n).length = n := by
  simp [State.firstRegs]

theorem firstRegs_getD (s : State) {n k : Nat} (h : k < n) :
    (s.firstRegs n).getD k 0#8 = s.reg (BitVec.ofNat 4 k) := by
  simp [State.firstRegs, List.getD_eq_getElem?_getD, h]

/-! ## Loading registers -/

theorem loadRegs_eq (s : State) (n : Nat) : ∃ v, s.loadRegs n = { s with v := v } := by
  induction n with
  | zero => exact ⟨s.v, rfl⟩
  | succ n ih =>
    obtain ⟨v, hv⟩ := ih
    exact ⟨_, by simp only [State.loadRegs, hv]; rfl⟩

section Loads
variable (s : State) (n : Nat)

@[simp] theorem loadRegs_i : (s.loadRegs n).i = s.i := by
  obtain ⟨m, h⟩ := loadRegs_eq s n; rw [h]
@[simp] theorem loadRegs_pc : (s.loadRegs n).pc = s.pc := by
  obtain ⟨m, h⟩ := loadRegs_eq s n; rw [h]
@[simp] theorem loadRegs_dt : (s.loadRegs n).dt = s.dt := by
  obtain ⟨m, h⟩ := loadRegs_eq s n; rw [h]
@[simp] theorem loadRegs_st : (s.loadRegs n).st = s.st := by
  obtain ⟨m, h⟩ := loadRegs_eq s n; rw [h]
@[simp] theorem loadRegs_stack : (s.loadRegs n).stack = s.stack := by
  obtain ⟨m, h⟩ := loadRegs_eq s n; rw [h]
@[simp] theorem loadRegs_disp : (s.loadRegs n).disp = s.disp := by
  obtain ⟨m, h⟩ := loadRegs_eq s n; rw [h]
@[simp] theorem loadRegs_wait : (s.loadRegs n).wait = s.wait := by
  obtain ⟨m, h⟩ := loadRegs_eq s n; rw [h]
@[simp] theorem loadRegs_key : (s.loadRegs n).key = s.key := by
  obtain ⟨m, h⟩ := loadRegs_eq s n; rw [h]
@[simp] theorem loadRegs_fault : (s.loadRegs n).fault = s.fault := by
  obtain ⟨m, h⟩ := loadRegs_eq s n; rw [h]
@[simp] theorem loadRegs_keysHeld : (s.loadRegs n).keysHeld = s.keysHeld := by
  obtain ⟨m, h⟩ := loadRegs_eq s n; rw [h]
@[simp] theorem loadRegs_rngQueue : (s.loadRegs n).rngQueue = s.rngQueue := by
  obtain ⟨m, h⟩ := loadRegs_eq s n; rw [h]
@[simp] theorem loadRegs_draws : (s.loadRegs n).draws = s.draws := by
  obtain ⟨m, h⟩ := loadRegs_eq s n; rw [h]
@[simp] theorem loadRegs_stackDepth : (s.loadRegs n).stackDepth = s.stackDepth := by
  obtain ⟨m, h⟩ := loadRegs_eq s n; rw [h]
@[simp] theorem loadRegs_schedule : (s.loadRegs n).schedule = s.schedule := by
  obtain ⟨m, h⟩ := loadRegs_eq s n; rw [h]
@[simp] theorem loadRegs_mem : (s.loadRegs n).mem = s.mem := by
  obtain ⟨m, h⟩ := loadRegs_eq s n; rw [h]

end Loads

@[simp] theorem loadRegs_readByte (s : State) (n p : Nat) :
    (s.loadRegs n).readByte p = s.readByte p := by
  simp [State.readByte]

/-- The registers below `n` come from memory, the others stay. -/
theorem loadRegs_reg (s : State) {n : Nat} (h : n ≤ 16) (r : RegIx) :
    (s.loadRegs n).reg r = if r.toNat < n then s.readByte (s.ea r.toNat) else s.reg r := by
  induction n with
  | zero => simp [State.loadRegs]
  | succ n ih =>
    rw [State.loadRegs, reg_setReg, ih (by omega)]
    by_cases hr : r = BitVec.ofNat 4 n
    · subst hr
      simp [Nat.mod_eq_of_lt (show n < 16 by omega)]
    · have : r.toNat ≠ n := fun e => hr (by rw [← e]; simp)
      rw [if_neg hr]
      by_cases h2 : r.toNat < n
      · rw [if_pos h2, if_pos (by omega)]
      · rw [if_neg h2, if_neg (by omega)]

/-! ## Skips and draws -/

/-- A skip is a write of `PC`. -/
theorem skipIf_eq (s : State) (c : Bool) :
    s.skipIf c = s.setPc (if c then s.pc + 2#16 else s.pc) := by
  cases c <;> rfl

section Draw
variable (s : State)

@[simp] theorem afterDraw_v : s.afterDraw.v = s.v := by
  unfold State.afterDraw; split <;> rfl
@[simp] theorem afterDraw_i : s.afterDraw.i = s.i := by
  unfold State.afterDraw; split <;> rfl
@[simp] theorem afterDraw_pc : s.afterDraw.pc = s.pc := by
  unfold State.afterDraw; split <;> rfl
@[simp] theorem afterDraw_dt : s.afterDraw.dt = s.dt := by
  unfold State.afterDraw; split <;> rfl
@[simp] theorem afterDraw_st : s.afterDraw.st = s.st := by
  unfold State.afterDraw; split <;> rfl
@[simp] theorem afterDraw_stack : s.afterDraw.stack = s.stack := by
  unfold State.afterDraw; split <;> rfl
@[simp] theorem afterDraw_disp : s.afterDraw.disp = s.disp := by
  unfold State.afterDraw; split <;> rfl
@[simp] theorem afterDraw_wait : s.afterDraw.wait = s.wait := by
  unfold State.afterDraw; split <;> rfl
@[simp] theorem afterDraw_key : s.afterDraw.key = s.key := by
  unfold State.afterDraw; split <;> rfl
@[simp] theorem afterDraw_fault : s.afterDraw.fault = s.fault := by
  unfold State.afterDraw; split <;> rfl
@[simp] theorem afterDraw_keysHeld : s.afterDraw.keysHeld = s.keysHeld := by
  unfold State.afterDraw; split <;> rfl
@[simp] theorem afterDraw_stackDepth : s.afterDraw.stackDepth = s.stackDepth := by
  unfold State.afterDraw; split <;> rfl
@[simp] theorem afterDraw_schedule : s.afterDraw.schedule = s.schedule := by
  unfold State.afterDraw; split <;> rfl
@[simp] theorem afterDraw_mem : s.afterDraw.mem = s.mem := by
  unfold State.afterDraw; split <;> rfl

end Draw

@[simp] theorem afterDraw_reg (s : State) (r : RegIx) : s.afterDraw.reg r = s.reg r := by
  simp [State.reg]

@[simp] theorem afterDraw_readByte (s : State) (p : Nat) : s.afterDraw.readByte p = s.readByte p := by
  simp [State.readByte]

/-! ## Fetch -/

/-- The fetch has no fault exactly when `PC` is even and at most 0xFFE. -/
theorem fetchFault_none_iff (s : State) :
    fetchFault? s = none ↔ s.pc.toNat % 2 = 0 ∧ s.pc.toNat ≤ 0xFFE := by
  have h0 : s.pc.getLsbD 0 = decide (s.pc.toNat % 2 = 1) := by
    rw [BitVec.getLsbD, Nat.testBit_zero]
  unfold fetchFault?
  rw [h0]
  by_cases h1 : s.pc.toNat % 2 = 1
  · simp [h1]
  · by_cases h2 : 0xFFE < s.pc.toNat
    · simp [h1, h2]
    · simp only [h1, h2, decide_false, Bool.false_eq_true, if_false, true_iff]
      omega

/-- All that the core's `Step` can do: stand still while halted, raise a fetch fault, raise an invalid instruction, or run
the decoded instruction on the advanced `PC`. -/
theorem coreStep_cases (s : State) :
    (s.fault ≠ none ∧ coreStep s = .next s) ∨
    (s.fault = none ∧ ∃ f, fetchFault? s = some f ∧ coreStep s = .next (s.setFault f)) ∨
    (s.fault = none ∧ fetchFault? s = none ∧
      ((∃ e, decodeWord (fetchWord s) = .error e ∧
          coreStep s = .next (s.advancePc.setFault (.invalidInstruction (fetchWord s)))) ∨
        ∃ i, decodeWord (fetchWord s) = .ok i ∧ coreStep s = exec i s.advancePc)) := by
  cases hf : s.fault with
  | some f => exact .inl ⟨by simp, by simp [coreStep, hf]⟩
  | none =>
    cases hff : fetchFault? s with
    | some f => exact .inr (.inl ⟨rfl, f, rfl, by simp [coreStep, hf, hff, raise]⟩)
    | none =>
      refine .inr (.inr ⟨rfl, rfl, ?_⟩)
      cases hd : decodeWord (fetchWord s) with
      | error e => exact .inl ⟨e, rfl, by simp [coreStep, hf, hff, runWord, hd, raise]⟩
      | ok i => exact .inr ⟨i, rfl, by simp [coreStep, hf, hff, runWord, hd]⟩

end Sys2Proof.Machine
end

