-- ==== Sys2Proof/Laws/Display.lean ====
section
/-!
SUPPORT. What the display operations do, pixel by pixel.
-/

namespace Sys2Proof.Machine

theorem pixel_setPixel (d : Display) {x y : Nat} (hx : x < 64) (hy : y < 32) (on : Bool) (p q : Nat) :
    Display.pixel (Display.setPixel d x y on) p q = if p = x ∧ q = y then on else Display.pixel d p q := by
  by_cases hpq : p < 64 ∧ q < 32
  · simp only [Display.pixel, Display.setPixel, hx, hy, hpq, and_self, dite_true, Vector.getElem_set]
    by_cases hq : y = q
    · subst hq
      simp only [if_true, Vector.getElem_set]
      by_cases hp : x = p
      · simp [hp]
      · simp [hp, Ne.symm hp]
    · simp [hq, Ne.symm hq]
  · rw [if_neg (by omega)]
    simp [Display.pixel, hpq]

@[simp] theorem pixel_blank (p q : Nat) : Display.pixel Display.blank p q = false := by
  unfold Display.pixel Display.blank
  split <;> simp

/-- Two displays with the same pixels are the same. -/
theorem display_ext {d e : Display}
    (h : ∀ x y, x < 64 → y < 32 → Display.pixel d x y = Display.pixel e x y) : d = e := by
  apply Vector.ext
  intro y hy
  apply Vector.ext
  intro x hx
  simpa [Display.pixel, hx, hy] using h x y hx hy

/-- One pixel of a sprite toggles exactly the pixel it covers on the surface. -/
theorem blitPixel_pixel (b : Byte) {x0 yy : Nat} (hy : yy < 32) (acc : Blit) (c p q : Nat) :
    Display.pixel (blitPixel b x0 yy acc c).disp p q =
      (Display.pixel acc.disp p q ^^
        decide (p = x0 + c ∧ q = yy ∧ p < 64 ∧ spriteBit b c = true)) := by
  unfold blitPixel
  split
  · next h =>
    rw [pixel_setPixel _ (by omega) hy]
    by_cases e : p = x0 + c ∧ q = yy
    · obtain ⟨rfl, rfl⟩ := e
      simp [h.2, show x0 + c < 64 by omega]
    · rw [if_neg e]
      have : ¬ (p = x0 + c ∧ q = yy ∧ p < 64 ∧ spriteBit b c = true) := fun g => e ⟨g.1, g.2.1⟩
      simp [this]
  · next h =>
    have : ¬ (p = x0 + c ∧ q = yy ∧ p < 64 ∧ spriteBit b c = true) :=
      fun g => h ⟨by omega, g.2.2.2⟩
    simp [this]

end Sys2Proof.Machine
end

