-- ==== Sys2Proof/Laws/Frames.lean ====
section
/-!
SUPPORT. Frames: what each named update leaves unchanged, and how frames compose.
-/

namespace Sys2Proof.Machine

/-- A frame, field by field. -/
theorem unchanged_intro {l : List Field} {s t : State} (h : ∀ f : Field, f ∈ l ∨ f.same s t) :
    Unchanged l s t := fun f hf => (h f).resolve_left hf

theorem Unchanged.refl (l : List Field) (s : State) : Unchanged l s s := by
  intro f _
  cases f <;> simp [Field.same]

theorem Unchanged.mono {l m : List Field} {s t : State} (h : Unchanged l s t)
    (hlm : ∀ f ∈ l, f ∈ m) : Unchanged m s t := fun f hf => h f (fun hl => hf (hlm f hl))

theorem same_trans {f : Field} {s t u : State} (h : f.same s t) (h' : f.same t u) : f.same s u := by
  cases f <;> simp only [Field.same] at * <;> grind

theorem Unchanged.trans {l m : List Field} {s t u : State} (h : Unchanged l s t) (h' : Unchanged m t u) :
    Unchanged (l ++ m) s u := by
  intro f hf
  rw [List.mem_append, not_or] at hf
  exact same_trans (h f hf.1) (h' f hf.2)

theorem RegsUnchanged.trans {l m : List RegIx} {s t u : State} (h : RegsUnchanged l s t)
    (h' : RegsUnchanged m t u) : RegsUnchanged (l ++ m) s u := by
  intro r hr
  rw [List.mem_append, not_or] at hr
  exact (h' r hr.2).trans (h r hr.1)

section Updates
variable (s : State)

theorem unchanged_setReg (x : RegIx) (b : Byte) : Unchanged [.v] s (s.setReg x b) := by
  intro f hf
  cases f <;> first | rfl | (intro _; rfl) | simp at hf

theorem unchanged_setI (a : Word) : Unchanged [.i] s (s.setI a) := by
  intro f hf
  cases f <;> first | rfl | (intro _; rfl) | simp at hf

theorem unchanged_setPc (a : Word) : Unchanged [.pc] s (s.setPc a) := by
  intro f hf
  cases f <;> first | rfl | (intro _; rfl) | simp at hf

theorem unchanged_setDt (b : Byte) : Unchanged [.dt] s (s.setDt b) := by
  intro f hf
  cases f <;> first | rfl | (intro _; rfl) | simp at hf

theorem unchanged_setSt (b : Byte) : Unchanged [.st] s (s.setSt b) := by
  intro f hf
  cases f <;> first | rfl | (intro _; rfl) | simp at hf

theorem unchanged_setWaitKey (w : Bool) (k : Option KeyCode) : Unchanged [.wait, .key] s (s.setWaitKey w k) := by
  intro f hf
  cases f <;> first | rfl | (intro _; rfl) | simp at hf

theorem unchanged_setDisp (d : Display) : Unchanged [.disp] s (s.setDisp d) := by
  intro f hf
  cases f <;> first | rfl | (intro _; rfl) | simp at hf

theorem unchanged_setStack (l : List Word) : Unchanged [.stack] s (s.setStack l) := by
  intro f hf
  cases f <;> first | rfl | (intro _; rfl) | simp at hf

theorem unchanged_setFault (f : Fault) : Unchanged [.fault] s (s.setFault f) := by
  intro f hf
  cases f <;> first | rfl | (intro _; rfl) | simp at hf

theorem unchanged_setSchedule (l : List Transition) : Unchanged [.schedule] s (s.setSchedule l) := by
  intro f hf
  cases f <;> first | rfl | (intro _; rfl) | simp at hf

theorem unchanged_writeBytes (a : Nat) (l : List Byte) : Unchanged [.mem] s (s.writeBytes a l) := by
  intro f hf
  cases f <;> simp [Field.same] at hf ⊢

theorem unchanged_loadRegs (n : Nat) : Unchanged [.v] s (s.loadRegs n) := by
  intro f hf
  cases f <;> simp [Field.same] at hf ⊢

theorem unchanged_afterDraw : Unchanged [.rngQueue, .draws] s s.afterDraw := by
  intro f hf
  cases f <;> simp [Field.same] at hf ⊢

theorem regsUnchanged_setReg (x : RegIx) (b : Byte) : RegsUnchanged [x] s (s.setReg x b) := by
  intro r hr
  exact reg_setReg_other s (by simpa using hr) b

/-- A result and then the flag: every other field, and every register but the destination and `VF`, stays. -/
theorem unchanged_setResultThenFlag (x : RegIx) (b : Byte) (c : Bool) :
    Unchanged [.v] s (s.setResultThenFlag x b c) ∧ RegsUnchanged [x, 0xF#4] s (s.setResultThenFlag x b c) :=
  ⟨((unchanged_setReg s x b).trans (unchanged_setReg _ flagReg (flagByte c))).mono (by simp),
    (regsUnchanged_setReg s x b).trans (regsUnchanged_setReg _ flagReg (flagByte c))⟩

/-- A result and then the flag: `VF` holds the flag, and the destination, when it is not `VF`, the result. -/
theorem reg_setResultThenFlag (x : RegIx) (b : Byte) (c : Bool) :
    (s.setResultThenFlag x b c).reg 0xF#4 = flagByte c ∧
      (x ≠ 0xF#4 → (s.setResultThenFlag x b c).reg x = b) := by
  refine ⟨reg_setReg_same _ _ _, fun hx => ?_⟩
  rw [setResultThenFlag_eq, reg_setReg_other _ (show x ≠ flagReg from hx), reg_setReg_same]

end Updates

end Sys2Proof.Machine
end

