-- ==== Sys2Proof/Laws/Environment.lean ====
section
/-!
SUPPORT. What the transitions that are not instructions can do, one lemma each, and the operations that neither see
nor change the schedule or the level of the held keys.
-/

namespace Sys2Proof.Machine

theorem countDown_toNat (b : Byte) : (countDown b).toNat = b.toNat - 1 := by
  unfold countDown
  split
  · simp; omega
  · omega

theorem timerTick_cases (s : State) :
    (s.fault = none ∧ timerTick s = (s.setDt (countDown s.dt)).setSt (countDown s.st)) ∨
      (s.fault ≠ none ∧ timerTick s = s) := by
  cases h : s.fault <;> simp [timerTick, h]

theorem keyRelease_cases (k : KeyCode) (s : State) :
    (s.fault = none ∧ s.wait = true ∧ keyRelease k s = s.setWaitKey true (some k)) ∨
      ((s.fault ≠ none ∨ s.wait = false) ∧ keyRelease k s = s) := by
  cases h : s.fault <;> cases hw : s.wait <;> simp [keyRelease, h, hw]

theorem presentKeys_cases (held : BitVec 16) (s : State) :
    (s.fault = none ∧ presentKeys held s = s.withKeysHeld held) ∨
      (s.fault ≠ none ∧ presentKeys held s = s) := by
  cases h : s.fault <;> simp [presentKeys, State.withKeysHeld, h]

theorem resetWith_cases (image : List Byte) (s : State) :
    (image.length ≤ 3584 ∧
        resetWith image s = .next ((clearForReset s).writeBytes Config.programBase image)) ∨
      (3584 < image.length ∧ resetWith image s = .refused (.oversizedImage image.length)) := by
  by_cases h : image.length ≤ 3584
  · exact .inl ⟨h, if_pos (decide_eq_true h)⟩
  · refine .inr ⟨by omega, if_neg ?_⟩
    intro hw
    exact h (of_decide_eq_true hw)

theorem writeBytes_setSchedule (s : State) (l : List Transition) (a : Nat) (bs : List Byte) :
    (s.setSchedule l).writeBytes a bs = (s.writeBytes a bs).setSchedule l := by
  induction bs generalizing s a with
  | nil => rfl
  | cons b rest ih => exact ih (s.writeByte a b) (a + 1)

theorem writeBytes_withKeysHeld (s : State) (held : BitVec 16) (a : Nat) (bs : List Byte) :
    (s.withKeysHeld held).writeBytes a bs = (s.writeBytes a bs).withKeysHeld held := by
  induction bs generalizing s a with
  | nil => rfl
  | cons b rest ih => exact ih (s.writeByte a b) (a + 1)

theorem loadRegs_setSchedule (s : State) (l : List Transition) (n : Nat) :
    (s.setSchedule l).loadRegs n = (s.loadRegs n).setSchedule l := by
  induction n with
  | zero => rfl
  | succ n ih => simp only [State.loadRegs, ih]; rfl

theorem loadRegs_withKeysHeld (s : State) (held : BitVec 16) (n : Nat) :
    (s.withKeysHeld held).loadRegs n = (s.loadRegs n).withKeysHeld held := by
  induction n with
  | zero => rfl
  | succ n ih => simp only [State.loadRegs, ih]; rfl

end Sys2Proof.Machine
end

