-- ==== Sys2Proof/Laws/Exec.lean ====
section
/-!
SUPPORT. The memory instructions when their whole data range is inside memory, the core's `Step` on a decoded
instruction, and a run one step further: what later proofs cite instead of unfolding the meanings.
-/

namespace Sys2Proof.Machine

theorem exec_ldB_ok {x : RegIx} {s : State} (h : s.i.toNat ≤ 0xFFD) :
    exec (.ldB x) s = .next (s.writeBytes s.i.toNat (bcdDigits (s.reg x))) :=
  withDataRange_ok (s := s) (len := 3) (fun s => s.writeBytes (s.ea 0) (bcdDigits (s.reg x))) (by omega)

theorem exec_saveRegs_ok {x : RegIx} {s : State} (h : s.i.toNat + x.toNat ≤ 0xFFF) :
    exec (.saveRegs x) s =
      .next ((s.writeBytes s.i.toNat (s.firstRegs (x.toNat + 1))).setI
        (BitVec.ofNat 16 (s.i.toNat + (x.toNat + 1)))) := by
  simp only [exec, execSaveRegs, regCount]
  rw [withDataRange_ok _ (by omega)]
  simp [advanceI_eq, State.ea]

theorem exec_restoreRegs_ok {x : RegIx} {s : State} (h : s.i.toNat + x.toNat ≤ 0xFFF) :
    exec (.restoreRegs x) s =
      .next ((s.loadRegs (x.toNat + 1)).setI (BitVec.ofNat 16 (s.i.toNat + (x.toNat + 1)))) := by
  simp only [exec, execRestoreRegs, regCount]
  rw [withDataRange_ok _ (by omega)]
  simp [advanceI_eq]

theorem exec_drw_ok {x y : RegIx} {n : BitVec 4} {s : State}
    (h : n = 0#4 ∨ s.i.toNat + (n.toNat - 1) ≤ 0xFFF) :
    exec (.drw x y n) s =
      .next ((s.setDisp (s.spriteBlit x y n).disp).setFlag (s.spriteBlit x y n).collision) :=
  withDataRange_ok (s := s) (len := n.toNat)
    (fun s => (s.setDisp (s.spriteBlit x y n).disp).setFlag (s.spriteBlit x y n).collision)
    (h.imp_left (fun e => by rw [e]; rfl))

/-- The core's `Step` on a word that decodes. -/
theorem coreStep_decoded {s : State} {i : Instr} (h : s.fault = none) (hf : fetchFault? s = none)
    (hd : decodeWord (fetchWord s) = .ok i) : coreStep s = exec i s.advancePc := by
  simp [coreStep, h, hf, runWord, hd]

/-- A run goes on from the state its first step leaves. -/
theorem run_succ_of_next {n : Nat} {s t : State} (h : step s = .next t) :
    Host.Core.run Sys2Proof.core (n + 1) s = Host.Core.run Sys2Proof.core n t := by
  have h' : Sys2Proof.core.step s = .next t := h
  simp only [Host.Core.run, h']

/-- With nothing scheduled the core moves. -/
theorem step_of_empty_schedule {s : State} (h : s.schedule = []) : step s = coreStep s := by
  simp [step, nextTransition, h]

end Sys2Proof.Machine
end

