-- ==== Sys2Proof/Tests/Slice0.lean ====
section
/-!
SUPPORT. The model's own tests: the refused image, one decoded word per instruction, at most two single steps per
instruction with the results that spec/95_test_vectors.md gives, and for every obligation with hypotheses a witness
that meets them, at the boundary values of each clause.
-/

namespace Sys2Proof.Tests

open Sys2Proof.Machine

/-! ## Helpers -/

/-- The reset state with the listed registers. -/
def withRegs (l : List (RegIx × Byte)) : State := l.foldl (fun s p => s.setReg p.1 p.2) State.reset

/-- The state a step leaves. -/
def next (s : State) : State :=
  match step s with
  | .next t => t
  | _ => s

/-- The state after the one instruction `w`, placed at `PC`. -/
def after (w : Word) (s : State) : State := next (s.withFetchWord 16 w.toNat)

/-- The state an instruction leaves. -/
def ran (i : Instr) (s : State) : State :=
  match exec i s with
  | .next t => t
  | _ => s

/-- The state a transition leaves. -/
def fired (tr : Transition) (s : State) : State :=
  match fire tr s with
  | .next t => t
  | _ => s

/-- The reset state with a call stack of `n` entries 0x0110. -/
def stacked (n : Nat) : State := State.reset.setStack (List.replicate n 0x0110#16)

/-! ## Well-formedness -/

/-- A program image of one byte too many is refused (spec/70_reset_and_hazards.md R242). -/
theorem test_wellFormed_refuses_image_of_3585_bytes : imageWf (List.replicate 3585 0x00#8) = false := by
  rw [imageWf, List.length_replicate]; decide

/-- The longest image is accepted (R242). -/
theorem test_wellFormed_accepts_image_of_3584_bytes : imageWf (List.replicate 3584 0x00#8) = true := by
  rw [imageWf, List.length_replicate]; decide

/-! ## Decoding: each word is written out from the match and fields of spec/30_encoding.md R72 and R76 -/

theorem test_decode_cls :
    decodeWord 0b0000_0000_1110_0000#16 = .ok .cls ∧ encode .cls = 0b0000_0000_1110_0000#16 := by decide

theorem test_decode_ret :
    decodeWord 0b0000_0000_1110_1110#16 = .ok .ret ∧ encode .ret = 0b0000_0000_1110_1110#16 := by decide

theorem test_decode_jp :
    decodeWord 0b0001_1010_1011_1100#16 = .ok (.jp 0xABC#12) ∧ encode (.jp 0xABC#12) = 0b0001_1010_1011_1100#16 := by decide

theorem test_decode_call :
    decodeWord 0b0010_0011_0000_0001#16 = .ok (.call 0x301#12) ∧ encode (.call 0x301#12) = 0b0010_0011_0000_0001#16 := by decide

theorem test_decode_seImm :
    decodeWord 0b0011_1010_0100_0010#16 = .ok (.seImm 0xA#4 0x42#8) ∧ encode (.seImm 0xA#4 0x42#8) = 0b0011_1010_0100_0010#16 := by decide

theorem test_decode_sneImm :
    decodeWord 0b0100_0001_1000_0001#16 = .ok (.sneImm 0x1#4 0x81#8) ∧ encode (.sneImm 0x1#4 0x81#8) = 0b0100_0001_1000_0001#16 := by decide

theorem test_decode_seReg :
    decodeWord 0b0101_1010_1011_0000#16 = .ok (.seReg 0xA#4 0xB#4) ∧ encode (.seReg 0xA#4 0xB#4) = 0b0101_1010_1011_0000#16 := by decide

theorem test_decode_ldImm :
    decodeWord 0b0110_1111_0000_0111#16 = .ok (.ldImm 0xF#4 0x07#8) ∧ encode (.ldImm 0xF#4 0x07#8) = 0b0110_1111_0000_0111#16 := by decide

theorem test_decode_addImm :
    decodeWord 0b0111_0010_1111_1110#16 = .ok (.addImm 0x2#4 0xFE#8) ∧ encode (.addImm 0x2#4 0xFE#8) = 0b0111_0010_1111_1110#16 := by decide

theorem test_decode_ldReg :
    decodeWord 0b1000_0001_0010_0000#16 = .ok (.ldReg 0x1#4 0x2#4) ∧ encode (.ldReg 0x1#4 0x2#4) = 0b1000_0001_0010_0000#16 := by decide

theorem test_decode_orReg :
    decodeWord 0b1000_0001_0010_0001#16 = .ok (.orReg 0x1#4 0x2#4) ∧ encode (.orReg 0x1#4 0x2#4) = 0b1000_0001_0010_0001#16 := by decide

theorem test_decode_andReg :
    decodeWord 0b1000_0001_0010_0010#16 = .ok (.andReg 0x1#4 0x2#4) ∧ encode (.andReg 0x1#4 0x2#4) = 0b1000_0001_0010_0010#16 := by decide

theorem test_decode_xorReg :
    decodeWord 0b1000_0001_0010_0011#16 = .ok (.xorReg 0x1#4 0x2#4) ∧ encode (.xorReg 0x1#4 0x2#4) = 0b1000_0001_0010_0011#16 := by decide

theorem test_decode_addReg :
    decodeWord 0b1000_0001_0010_0100#16 = .ok (.addReg 0x1#4 0x2#4) ∧ encode (.addReg 0x1#4 0x2#4) = 0b1000_0001_0010_0100#16 := by decide

theorem test_decode_subReg :
    decodeWord 0b1000_0001_0010_0101#16 = .ok (.subReg 0x1#4 0x2#4) ∧ encode (.subReg 0x1#4 0x2#4) = 0b1000_0001_0010_0101#16 := by decide

theorem test_decode_shr :
    decodeWord 0b1000_1010_1011_0110#16 = .ok (.shr 0xA#4 0xB#4) ∧ encode (.shr 0xA#4 0xB#4) = 0b1000_1010_1011_0110#16 := by decide

theorem test_decode_subn :
    decodeWord 0b1000_0001_0010_0111#16 = .ok (.subn 0x1#4 0x2#4) ∧ encode (.subn 0x1#4 0x2#4) = 0b1000_0001_0010_0111#16 := by decide

theorem test_decode_shl :
    decodeWord 0b1000_1010_1011_1110#16 = .ok (.shl 0xA#4 0xB#4) ∧ encode (.shl 0xA#4 0xB#4) = 0b1000_1010_1011_1110#16 := by decide

theorem test_decode_sneReg :
    decodeWord 0b1001_1010_1011_0000#16 = .ok (.sneReg 0xA#4 0xB#4) ∧ encode (.sneReg 0xA#4 0xB#4) = 0b1001_1010_1011_0000#16 := by decide

theorem test_decode_ldI :
    decodeWord 0b1010_0010_1111_0000#16 = .ok (.ldI 0x2F0#12) ∧ encode (.ldI 0x2F0#12) = 0b1010_0010_1111_0000#16 := by decide

theorem test_decode_jpV0 :
    decodeWord 0b1011_0011_0000_0000#16 = .ok (.jpV0 0x300#12) ∧ encode (.jpV0 0x300#12) = 0b1011_0011_0000_0000#16 := by decide

theorem test_decode_rnd :
    decodeWord 0b1100_0011_0000_1111#16 = .ok (.rnd 0x3#4 0x0F#8) ∧ encode (.rnd 0x3#4 0x0F#8) = 0b1100_0011_0000_1111#16 := by decide

theorem test_decode_drw :
    decodeWord 0b1101_0001_0010_0101#16 = .ok (.drw 0x1#4 0x2#4 0x5#4) ∧ encode (.drw 0x1#4 0x2#4 0x5#4) = 0b1101_0001_0010_0101#16 := by decide

theorem test_decode_skp :
    decodeWord 0b1110_0001_1001_1110#16 = .ok (.skp 0x1#4) ∧ encode (.skp 0x1#4) = 0b1110_0001_1001_1110#16 := by decide

theorem test_decode_sknp :
    decodeWord 0b1110_0010_1010_0001#16 = .ok (.sknp 0x2#4) ∧ encode (.sknp 0x2#4) = 0b1110_0010_1010_0001#16 := by decide

theorem test_decode_ldVxDT :
    decodeWord 0b1111_0101_0000_0111#16 = .ok (.ldVxDT 0x5#4) ∧ encode (.ldVxDT 0x5#4) = 0b1111_0101_0000_0111#16 := by decide

theorem test_decode_ldVxK :
    decodeWord 0b1111_0011_0000_1010#16 = .ok (.ldVxK 0x3#4) ∧ encode (.ldVxK 0x3#4) = 0b1111_0011_0000_1010#16 := by decide

theorem test_decode_ldDTVx :
    decodeWord 0b1111_0001_0001_0101#16 = .ok (.ldDTVx 0x1#4) ∧ encode (.ldDTVx 0x1#4) = 0b1111_0001_0001_0101#16 := by decide

theorem test_decode_ldSTVx :
    decodeWord 0b1111_0001_0001_1000#16 = .ok (.ldSTVx 0x1#4) ∧ encode (.ldSTVx 0x1#4) = 0b1111_0001_0001_1000#16 := by decide

theorem test_decode_addI :
    decodeWord 0b1111_0010_0001_1110#16 = .ok (.addI 0x2#4) ∧ encode (.addI 0x2#4) = 0b1111_0010_0001_1110#16 := by decide

theorem test_decode_ldF :
    decodeWord 0b1111_0001_0010_1001#16 = .ok (.ldF 0x1#4) ∧ encode (.ldF 0x1#4) = 0b1111_0001_0010_1001#16 := by decide

theorem test_decode_ldB :
    decodeWord 0b1111_1000_0011_0011#16 = .ok (.ldB 0x8#4) ∧ encode (.ldB 0x8#4) = 0b1111_1000_0011_0011#16 := by decide

theorem test_decode_saveRegs :
    decodeWord 0b1111_0011_0101_0101#16 = .ok (.saveRegs 0x3#4) ∧ encode (.saveRegs 0x3#4) = 0b1111_0011_0101_0101#16 := by decide

theorem test_decode_restoreRegs :
    decodeWord 0b1111_1111_0110_0101#16 = .ok (.restoreRegs 0xF#4) ∧ encode (.restoreRegs 0xF#4) = 0b1111_1111_0110_0101#16 := by decide

/-- The record `(kind, x, y, imm)`, one word of each format and an INVALID one: `x` and `y` are always extracted (R73). -/
theorem test_decodeRecord :
    decodeRecord 0x00E0#16 = ⟨.cls, 0x0#4, 0xE#4, 0x0000#16⟩ ∧
      decodeRecord 0x1ABC#16 = ⟨.jp, 0xA#4, 0xB#4, 0x0ABC#16⟩ ∧
      decodeRecord 0x3A42#16 = ⟨.seImm, 0xA#4, 0x4#4, 0x0042#16⟩ ∧
      decodeRecord 0x8AB6#16 = ⟨.shr, 0xA#4, 0xB#4, 0x0000#16⟩ ∧
      decodeRecord 0xD125#16 = ⟨.drw, 0x1#4, 0x2#4, 0x0005#16⟩ ∧
      decodeRecord 0xE19E#16 = ⟨.skp, 0x1#4, 0x9#4, 0x0000#16⟩ ∧
      decodeRecord 0x5AB1#16 = ⟨.invalid, 0xA#4, 0xB#4, 0x0000#16⟩ := by decide

/-- The byte at the lower address is the high byte (spec/20_memory.md R54). -/
theorem test_decode_bytes_high_first : decode [0x12#8, 0x34#8, 0x56#8] = .ok (.jp 0x234#12, [0x56#8]) := by decide

/-! ## One step of each instruction (spec/95_test_vectors.md, part 2; the identifier stands above each) -/

/-- V-ALU-2. -/
theorem test_ldImm_names_vf :
    (after 0x6F07#16 State.reset).reg 0xF#4 = 0x07#8 := by decide

/-- V-ALU-3. -/
theorem test_addImm_wraps :
    let t := after 0x7001#16 (withRegs [(0#4, 0xFF#8), (0xF#4, 0x55#8)])
    t.reg 0#4 = 0x00#8 ∧ t.reg 0xF#4 = 0x55#8 := by decide

/-- V-ALU-5. -/
theorem test_addImm_vf :
    (after 0x7F02#16 (withRegs [(0xF#4, 0xFF#8)])).reg 0xF#4 = 0x01#8 := by decide

/-- V-ALU-6. -/
theorem test_ldReg :
    (after 0x8010#16 (withRegs [(0#4, 0x01#8), (1#4, 0x77#8)])).reg 0#4 = 0x77#8 := by decide

/-- V-ALU-9. -/
theorem test_orReg_no_flag :
    let t := after 0x8011#16 (withRegs [(0#4, 0xF0#8), (1#4, 0x0F#8), (0xF#4, 0x77#8)])
    t.reg 0#4 = 0xFF#8 ∧ t.reg 0xF#4 = 0x77#8 := by decide

/-- V-ALU-10. -/
theorem test_andReg :
    (after 0x8012#16 (withRegs [(0#4, 0xF0#8), (1#4, 0x3C#8)])).reg 0#4 = 0x30#8 := by decide

/-- V-ALU-11. -/
theorem test_xorReg :
    (after 0x8013#16 (withRegs [(0#4, 0xF0#8), (1#4, 0x3C#8)])).reg 0#4 = 0xCC#8 := by decide

/-- V-ALU-13. -/
theorem test_addReg_carry :
    let t := after 0x8014#16 (withRegs [(0#4, 0xC8#8), (1#4, 0x64#8)])
    t.reg 0#4 = 0x2C#8 ∧ t.reg 0xF#4 = 0x01#8 := by decide

/-- V-ALU-18. -/
theorem test_addReg_into_vf :
    (after 0x8F04#16 (withRegs [(0#4, 0x20#8), (0xF#4, 0x10#8)])).reg 0xF#4 = 0x00#8 := by decide

/-- V-ALU-20. -/
theorem test_subReg_borrow :
    let t := after 0x8015#16 (withRegs [(0#4, 0x05#8), (1#4, 0x0A#8)])
    t.reg 0#4 = 0xFB#8 ∧ t.reg 0xF#4 = 0x00#8 := by decide

/-- V-ALU-22. -/
theorem test_subReg_equal :
    let t := after 0x8015#16 (withRegs [(0#4, 0x07#8), (1#4, 0x07#8)])
    t.reg 0#4 = 0x00#8 ∧ t.reg 0xF#4 = 0x01#8 := by decide

/-- V-ALU-26. -/
theorem test_subn_borrow :
    let t := after 0x8017#16 (withRegs [(0#4, 0x0A#8), (1#4, 0x05#8)])
    t.reg 0#4 = 0xFB#8 ∧ t.reg 0xF#4 = 0x00#8 := by decide

/-- V-ALU-30. -/
theorem test_shr_takes_vy :
    let t := after 0x8016#16 (withRegs [(0#4, 0xAA#8), (1#4, 0x05#8)])
    t.reg 0#4 = 0x02#8 ∧ t.reg 0xF#4 = 0x01#8 := by decide

/-- V-ALU-35. -/
theorem test_shr_from_vf :
    let t := after 0x80F6#16 (withRegs [(0#4, 0x00#8), (0xF#4, 0x03#8)])
    t.reg 0#4 = 0x01#8 ∧ t.reg 0xF#4 = 0x01#8 := by decide

/-- V-ALU-36. -/
theorem test_shl_takes_vy :
    let t := after 0x801E#16 (withRegs [(0#4, 0x00#8), (1#4, 0x81#8)])
    t.reg 0#4 = 0x02#8 ∧ t.reg 0xF#4 = 0x01#8 := by decide

/-- V-ALU-41. -/
theorem test_shl_into_vf :
    (after 0x8F1E#16 (withRegs [(1#4, 0xC0#8)])).reg 0xF#4 = 0x01#8 := by decide

/-- V-ALU-42, the draw supplied by the host. -/
theorem test_rnd_supplied_byte :
    let t := after 0xC30F#16 { State.reset with rngQueue := [0xB7#8] }
    t.reg 3#4 = 0x07#8 ∧ t.rngQueue = [] := by decide

/-- V-ALU-43: mask 0, whatever the free value of the draw. -/
theorem test_rnd_mask_zero : (ran (.rnd 5#4 0x00#8) State.reset).reg 5#4 = 0x00#8 := by
  show (State.reset.afterDraw.setReg 5#4 (State.reset.rngByte &&& 0x00#8)).reg 5#4 = 0x00#8
  rw [reg_setReg_same]
  exact BitVec.and_zero

/-- V-CTL-1. -/
theorem test_jp :
    (after 0x1ABC#16 State.reset).pc = 0x0ABC#16 := by decide

/-- V-CTL-3: the jump succeeds, the next step faults. -/
theorem test_jp_odd_target_faults_next :
    let t := after 0x1FFF#16 State.reset
    t.fault = none ∧ (next t).fault = some (.addressFault .fetchMisaligned 0x0FFF#16) := by decide

/-- V-CTL-4. -/
theorem test_jpV0 :
    (after 0xB300#16 (withRegs [(0#4, 0x04#8)])).pc = 0x0304#16 := by decide

/-- V-CTL-6. -/
theorem test_jpV0_not_cut :
    let t := after 0xBFFF#16 (withRegs [(0#4, 0xFF#8)])
    t.pc = 0x10FE#16 ∧ (next t).fault = some (.addressFault .fetchBounds 0x10FE#16) := by decide

/-- V-CTL-7. -/
theorem test_call :
    let t := after 0x2300#16 State.reset
    t.pc = 0x0300#16 ∧ t.stack = [0x0202#16] := by decide

/-- V-CTL-9. -/
theorem test_call_overflow :
    let t := after 0x2300#16 (stacked 16)
    t.fault = some (.stackOverflow 0x300#12) ∧ t.pc = 0x0202#16 ∧ t.sp = 16 := by decide

/-- V-CTL-11. -/
theorem test_ret_last_in_first_out :
    let t := after 0x00EE#16 ((State.reset.setStack [0x0202#16, 0x0345#16]).setPc 0x0300#16)
    t.pc = 0x0345#16 ∧ t.stack = [0x0202#16] := by decide

/-- V-CTL-12. -/
theorem test_ret_underflow :
    let t := after 0x00EE#16 (State.reset.setPc 0x0300#16)
    t.fault = some .stackUnderflow ∧ t.pc = 0x0302#16 := by decide

/-- V-CTL-13. -/
theorem test_seImm_equal :
    (after 0x3A42#16 (withRegs [(0xA#4, 0x42#8)])).pc = 0x0204#16 := by decide

/-- V-CTL-23. -/
theorem test_seImm_last_word :
    let t := after 0x3000#16 (State.reset.setPc 0x0FFE#16)
    t.pc = 0x1002#16 ∧ (next t).fault = some (.addressFault .fetchBounds 0x1002#16) := by decide

/-- V-CTL-15. -/
theorem test_sneImm_equal :
    (after 0x4A42#16 (withRegs [(0xA#4, 0x42#8)])).pc = 0x0202#16 := by decide

/-- V-CTL-16. -/
theorem test_sneImm_differs :
    (after 0x4A42#16 (withRegs [(0xA#4, 0x43#8)])).pc = 0x0204#16 := by decide

/-- V-CTL-18. -/
theorem test_seReg_differs :
    (after 0x5120#16 (withRegs [(1#4, 0x07#8), (2#4, 0x08#8)])).pc = 0x0202#16 := by decide

/-- V-CTL-19. -/
theorem test_seReg_same_register :
    (after 0x5330#16 (withRegs [(3#4, 0x09#8)])).pc = 0x0204#16 := by decide

/-- V-CTL-21. -/
theorem test_sneReg_differs :
    (after 0x9120#16 (withRegs [(1#4, 0x07#8), (2#4, 0x08#8)])).pc = 0x0204#16 := by decide

/-- V-CTL-22. -/
theorem test_sneReg_same_register :
    (after 0x9330#16 (withRegs [(3#4, 0x09#8)])).pc = 0x0202#16 := by decide

/-- V-TMR-1. -/
theorem test_ldVxDT :
    let t := after 0xF507#16 (State.reset.setDt 0x3C#8)
    t.reg 5#4 = 0x3C#8 ∧ t.dt = 0x3C#8 := by decide

/-- V-TMR-4. -/
theorem test_ldDTVx_no_floor :
    (after 0xF015#16 (withRegs [(0#4, 0x01#8)])).dt = 0x01#8 := by decide

/-- V-TMR-6. -/
theorem test_ldSTVx_one_is_zero :
    (after 0xF118#16 ((withRegs [(1#4, 0x01#8)]).setSt 0x09#8)).st = 0x00#8 := by decide

/-- V-TMR-7. -/
theorem test_ldSTVx_two :
    (after 0xF118#16 ((withRegs [(1#4, 0x02#8)]).setSt 0x09#8)).st = 0x02#8 := by decide

/-- V-KEY-4. -/
theorem test_skp_key_f :
    (after 0xE29E#16 ((withRegs [(2#4, 0x0F#8)]).withKeysHeld 0x8000#16)).pc = 0x0204#16 := by decide

/-- V-KEY-5. -/
theorem test_skp_no_such_key :
    (after 0xE29E#16 ((withRegs [(2#4, 0x1A#8)]).withKeysHeld 0xFFFF#16)).pc = 0x0202#16 := by decide

/-- V-KEY-6. -/
theorem test_sknp_held :
    (after 0xE2A1#16 ((withRegs [(2#4, 0x0A#8)]).withKeysHeld 0x0400#16)).pc = 0x0202#16 := by decide

/-- V-KEY-8. -/
theorem test_sknp_no_such_key :
    (after 0xE2A1#16 ((withRegs [(2#4, 0x1A#8)]).withKeysHeld 0xFFFF#16)).pc = 0x0204#16 := by decide

/-- V-KEY-WAIT, the first `Step`. -/
theorem test_ldVxK_begins :
    let t := after 0xF30A#16 State.reset
    t.pc = 0x0200#16 ∧ t.wait = true ∧ t.key = none := by decide

/-- V-KEY-WAIT, the third `Step`. -/
theorem test_ldVxK_takes :
    let t := after 0xF30A#16 (State.reset.setWaitKey true (some 0xA#4))
    t.pc = 0x0202#16 ∧ t.wait = false ∧ t.reg 3#4 = 0x0A#8 := by decide

/-- V-TICK, the first tick. -/
theorem test_timerTick :
    let t := fired .timerTick ((State.reset.setDt 0x02#8).setSt 0x01#8)
    t.dt = 0x01#8 ∧ t.st = 0x00#8 := by decide

/-- V-TICK, the third tick. -/
theorem test_timerTick_floor :
    let t := fired .timerTick State.reset
    t.dt = 0x00#8 ∧ t.st = 0x00#8 := by decide

/-- V-KEY-WAIT, the release before the wait. -/
theorem test_keyRelease_dropped :
    (fired (.keyRelease 5#4) State.reset).key = none := by decide

/-- V-KEY-WAIT, the second release. -/
theorem test_keyRelease_latest_wins :
    (fired (.keyRelease 0xA#4) (State.reset.setWaitKey true (some 3#4))).key = some 0xA#4 := by decide

/-- V-IDX-2. -/
theorem test_ldI :
    (after 0xAFFF#16 State.reset).i = 0x0FFF#16 := by decide

/-- V-IDX-5. -/
theorem test_addI_passes_top :
    let t := after 0xF21E#16 ((withRegs [(2#4, 0x01#8), (0xF#4, 0x55#8)]).setI 0x0FFF#16)
    t.i = 0x1000#16 ∧ t.reg 0xF#4 = 0x55#8 := by decide

/-- V-IDX-6. -/
theorem test_addI_wraps :
    (after 0xF21E#16 ((withRegs [(2#4, 0x02#8)]).setI 0xFFFF#16)).i = 0x0001#16 := by decide

/-- V-IDX-9. -/
theorem test_ldF :
    (after 0xF129#16 (withRegs [(1#4, 0x0F#8)])).i = 0x004B#16 := by decide

/-- V-IDX-11. -/
theorem test_ldF_not_masked :
    (after 0xF129#16 (withRegs [(1#4, 0xFF#8)])).i = 0x04FB#16 := by decide

/-- V-BCD-B1. -/
theorem test_ldB_highest_base :
    let t := after 0xF033#16 ((withRegs [(0#4, 0x7B#8)]).setI 0x0FFD#16)
    [t.readByte 0xFFD, t.readByte 0xFFE, t.readByte 0xFFF] = [1#8, 2#8, 3#8] ∧ t.i = 0x0FFD#16 := by decide

/-- V-BCD-B2. -/
theorem test_ldB_no_partial_write :
    let t := after 0xF033#16 ((withRegs [(0#4, 0x7B#8)]).setI 0x0FFE#16)
    t.fault = some (.addressFault .dataBounds 0x1000#16) ∧ t.readByte 0xFFE = 0x00#8 := by decide

/-- V-ST-1. -/
theorem test_saveRegs :
    let t := after 0xF355#16 ((withRegs [(0#4, 0x11#8), (1#4, 0x22#8), (2#4, 0x33#8), (3#4, 0x44#8), (4#4, 0x55#8)]).setI 0x0400#16)
    (List.range 5).map (fun k => t.readByte (0x400 + k)) = [0x11#8, 0x22#8, 0x33#8, 0x44#8, 0x00#8] ∧
      t.i = 0x0404#16 := by decide

/-- V-ST-6. -/
theorem test_saveRegs_top :
    let t := after 0xF055#16 ((withRegs [(0#4, 0x77#8)]).setI 0x0FFF#16)
    t.readByte 0xFFF = 0x77#8 ∧ t.i = 0x1000#16 := by decide

/-- V-LD-2. -/
theorem test_restoreRegs_font :
    let t := after 0xFF65#16 State.reset
    t.reg 0#4 = 0xF0#8 ∧ t.reg 9#4 = 0x70#8 ∧ t.reg 0xF#4 = 0xF0#8 ∧ t.i = 0x0010#16 := by decide

/-- V-LD-3. -/
theorem test_restoreRegs_no_partial_load :
    let t := after 0xF165#16 ((withRegs [(0#4, 0x01#8), (1#4, 0x02#8)]).setI 0x0FFF#16)
    t.fault = some (.addressFault .dataBounds 0x1000#16) ∧ t.reg 0#4 = 0x01#8 := by decide

/-- V-CLS-1. -/
theorem test_cls :
    let t := after 0x00E0#16 ((withRegs [(0xF#4, 0x07#8)]).setDisp (Display.setPixel Display.blank 63 31 true))
    t.pixel 63 31 = false ∧ t.reg 0xF#4 = 0x07#8 := by decide

/-- V-DRW-17: the glyph "4" at (10, 5). -/
theorem test_drw_glyph :
    let t := after 0xD125#16 ((withRegs [(1#4, 0x0A#8), (2#4, 0x05#8)]).setI 0x0014#16)
    (List.range 6).map (fun c => t.pixel (9 + c) 5) = [false, true, false, false, true, false] ∧
      (List.range 6).map (fun c => t.pixel (9 + c) 7) = [false, true, true, true, true, false] := by decide

/-- V-DRW-9 and V-DRW-12 in one state each. -/
theorem test_drw_clips_and_collides :
    let t := after 0xD011#16 (((State.reset.writeByte 0x300 0xC0#8).setI 0x0300#16).setDisp
      (Display.setPixel Display.blank 1 0 true))
    t.pixel 0 0 = true ∧ t.pixel 1 0 = false ∧ t.reg 0xF#4 = 0x01#8 ∧
      (after 0xD012#16 (State.reset.setI 0x0FFF#16)).fault = some (.addressFault .dataBounds 0x1000#16) := by decide

/-- Fault program F7: what an empty image executes. -/
theorem test_invalid_word :
    let t := next State.reset
    t.fault = some (.invalidInstruction 0x0000#16) ∧ t.pc = 0x0202#16 := by decide

/-! ## Witnesses: each obligation with hypotheses is met, at the boundary of each clause -/

theorem witness_ResetLoadsImage :
    (List.replicate 3584 0x00#8).length ≤ 3584 ∧
      (fired (.reset [0x12#8, 0x06#8]) (State.reset.setFault .stackUnderflow)).readByte 0x201 = 0x06#8 := by
  rw [List.length_replicate]; decide

theorem witness_OversizedImageRefused : 3584 < (List.replicate 3585 0x00#8).length := by
  rw [List.length_replicate]; decide

theorem witness_EncodeOfDecodedWord : decodeWord 0x8ABE#16 = .ok (.shl 0xA#4 0xB#4) := by decide

theorem witness_InvalidWordsExactly_group_0 :
    [0x0000#16, 0x00DF#16, 0x00E1#16, 0x00EF#16, 0x01E0#16, 0x0FFF#16].map decodeWord =
      [0x0000#16, 0x00DF#16, 0x00E1#16, 0x00EF#16, 0x01E0#16, 0x0FFF#16].map
        (fun w => .error (.invalidInstruction w)) := by decide

theorem witness_InvalidWordsExactly_groups_5_8_9 :
    [0x5AB1#16, 0x5ABF#16, 0x8AB8#16, 0x8ABD#16, 0x8ABF#16, 0x9AB1#16, 0x9ABF#16].map decodeWord =
      [0x5AB1#16, 0x5ABF#16, 0x8AB8#16, 0x8ABD#16, 0x8ABF#16, 0x9AB1#16, 0x9ABF#16].map
        (fun w => .error (.invalidInstruction w)) := by decide

theorem witness_InvalidWordsExactly_groups_E_F :
    [0xE09D#16, 0xE09F#16, 0xE0A2#16, 0xF008#16, 0xF075#16, 0xFFFF#16].map decodeWord =
      [0xE09D#16, 0xE09F#16, 0xE0A2#16, 0xF008#16, 0xF075#16, 0xFFFF#16].map
        (fun w => .error (.invalidInstruction w)) := by decide

/-- `LD V0, 1` on the last word of memory. -/
def atLastWord : State := (State.reset.setPc 0x0FFE#16).writeBytes 0xFFE [0x60#8, 0x01#8]

theorem witness_StepRunsDecodedInstruction : CanFetch atLastWord ∧
    decode [atLastWord.readByte atLastWord.pc.toNat, atLastWord.readByte (atLastWord.pc.toNat + 1)] =
      .ok (.ldImm 0#4 0x01#8, []) :=
  ⟨⟨by decide, by decide, by decide, by decide⟩, by decide⟩

theorem witness_StepOnInvalidWordFaults : CanFetch State.reset ∧
    (0x0000#16).toNat = 256 * (State.reset.readByte State.reset.pc.toNat).toNat +
      (State.reset.readByte (State.reset.pc.toNat + 1)).toNat ∧
    decodeWord 0x0000#16 = .error (.invalidInstruction 0x0000#16) :=
  ⟨⟨by decide, by decide, by decide, by decide⟩, by decide, by decide⟩

theorem witness_FetchFaults_odd : ∀ a ∈ [0x0201#16, 0x0FFF#16, 0x1001#16],
    (State.reset.setPc a).schedule = [] ∧ (State.reset.setPc a).fault = none ∧
      (State.reset.setPc a).pc.toNat % 2 = 1 ∧
      (next (State.reset.setPc a)).fault = some (.addressFault .fetchMisaligned a) := by
  intro a ha
  simp only [List.mem_cons, List.not_mem_nil, or_false] at ha
  rcases ha with rfl | rfl | rfl <;> decide

theorem witness_FetchFaults_bounds : ∀ a ∈ [0x1000#16, 0xFFFE#16],
    (State.reset.setPc a).pc.toNat % 2 = 0 ∧ 0xFFE < (State.reset.setPc a).pc.toNat ∧
      (next (State.reset.setPc a)).fault = some (.addressFault .fetchBounds a) := by
  intro a ha
  simp only [List.mem_cons, List.not_mem_nil, or_false] at ha
  rcases ha with rfl | rfl <;> decide

theorem witness_HaltedMachineStandsStill : (State.reset.setFault .stackUnderflow).fault ≠ none ∧
    ∀ image, Transition.timerTick ≠ .reset image :=
  ⟨by decide, fun _ => Transition.noConfusion⟩

theorem witness_ScheduledTransitionMovesFirst :
    (State.reset.setSchedule [.timerTick, .coreStep]).schedule = .timerTick :: [.coreStep] := by decide

theorem witness_PlacedInstructionRunsNext : ∀ a ∈ [0x0000#16, 0x0200#16, 0x0FFE#16],
    (State.reset.setPc a).pc.toNat % 2 = 0 ∧ (State.reset.setPc a).pc.toNat ≤ 0xFFE ∧
      (after 0x6107#16 (State.reset.setPc a)).reg 1#4 = 0x07#8 := by
  intro a ha
  simp only [List.mem_cons, List.not_mem_nil, or_false] at ha
  rcases ha with rfl | rfl | rfl <;> decide

theorem witness_CallPushesOrOverflows_room : (stacked 15).sp < (stacked 15).stackDepth.val ∧
    (ran (.call 0x300#12) (stacked 15)).sp = 16 := by decide

theorem witness_CallPushesOrOverflows_full : (stacked 16).stackDepth.val ≤ (stacked 16).sp ∧
    (ran (.call 0x300#12) (stacked 16)).fault = some (.stackOverflow 0x300#12) := by decide

theorem witness_ReturnPopsOrUnderflows :
    (stacked 1).stack = [] ++ [0x0110#16] ∧ (ran .ret (stacked 1)).pc = 0x0110#16 ∧
      (stacked 0).sp = 0 ∧ (ran .ret (stacked 0)).fault = some .stackUnderflow := by decide

theorem witness_CallThenReturnResumes : (stacked 15).sp < (stacked 15).stackDepth.val ∧
    (ran .ret (ran (.call 0x300#12) (stacked 15))).stack = (stacked 15).stack := by decide

/-- Sixteen calls from reset fill the stack. -/
theorem witness_NestedCallsReturnInReverse : State.reset.fault = none ∧
    State.reset.sp + (List.replicate 16 (0x0202#16, 0x200#12)).length = State.reset.stackDepth.val := by decide

/-- The least depth, 1: the first call fits, the second overflows. -/
theorem witness_CallPushesOrOverflows_least_depth :
    let s := { State.reset with stackDepth := ⟨1, by decide⟩ }
    s.sp < s.stackDepth.val ∧ (ran (.call 0x300#12) s).fault = none ∧
      (ran (.call 0x300#12) (ran (.call 0x300#12) s)).fault = some (.stackOverflow 0x300#12) := by decide

theorem witness_KeyWaitProtocol_begins : State.reset.wait = false ∧
    (ran (.ldVxK 3#4) (State.reset.setPc 0x0202#16)).pc = 0x0200#16 := by decide

theorem witness_KeyWaitProtocol_waits :
    (State.reset.setWaitKey true none).wait = true ∧ (State.reset.setWaitKey true none).key = none ∧
      (ran (.ldVxK 3#4) ((State.reset.setWaitKey true none).setPc 0x0202#16)).pc = 0x0200#16 := by decide

theorem witness_KeyWaitProtocol_takes :
    (State.reset.setWaitKey true (some 0xF#4)).wait = true ∧
      (State.reset.setWaitKey true (some 0xF#4)).key = some 0xF#4 ∧
      (ran (.ldVxK 0xF#4) (State.reset.setWaitKey true (some 0xF#4))).reg 0xF#4 = 0x0F#8 := by decide

/-- The machine after `LD V3, K` at 0x200 has begun to wait. -/
def waiting : State := after 0xF30A#16 State.reset

theorem witness_KeyWaitSpinsUntilRelease : CanFetch waiting ∧
    decodeWord (fetchWord waiting) = .ok (.ldVxK 3#4) ∧ waiting.wait = true ∧ waiting.key = none :=
  ⟨⟨by decide, by decide, by decide, by decide⟩, by decide, by decide, by decide⟩

theorem witness_TimerTickCountsDown : State.reset.fault = none ∧
    (fired .timerTick (State.reset.setDt 0xFF#8)).dt = 0xFE#8 ∧
    (State.reset.setFault .stackUnderflow).fault ≠ none ∧
    (fired .timerTick ((State.reset.setDt 0x3C#8).setFault .stackUnderflow)).dt = 0x3C#8 := by decide

theorem witness_RepeatedTicksStopAtZero :
    (State.reset.setSchedule (List.replicate 4 .timerTick)).fault = none ∧
      (State.reset.setSchedule (List.replicate 4 .timerTick)).schedule =
        List.replicate 4 Transition.timerTick := by decide

theorem witness_KeyEvents : waiting.fault = none ∧ waiting.wait = true ∧
    (fired (.keyRelease 0xF#4) waiting).key = some 0xF#4 ∧ State.reset.fault = none ∧
    State.reset.wait = false ∧ (fired (.keysHeld 0x8001#16) State.reset).keysHeld = 0x8001#16 := by decide

theorem witness_StoreDecimalDigits : (State.reset.setI 0x0FFD#16).i.toNat ≤ 0xFFD := by decide

theorem witness_SaveRegisters :
    (State.reset.setI 0x0FF0#16).i.toNat + (0xF#4).toNat ≤ 0xFFF ∧
      (ran (.saveRegs 0xF#4) ((withRegs [(0xF#4, 0xAF#8)]).setI 0x0FF0#16)).readByte 0xFFF = 0xAF#8 := by decide

theorem witness_RestoreRegisters : (State.reset.setI 0x0FFF#16).i.toNat + (0#4).toNat ≤ 0xFFF ∧
    (ran (.restoreRegs 0#4) (State.reset.setI 0x0FFF#16)).i = 0x1000#16 := by decide

/-- Between the two instructions `I` goes back to where it was. -/
theorem witness_SaveThenRestoreRoundTrip :
    let s := (withRegs [(0#4, 0x0A#8), (1#4, 0x0B#8)]).setI 0x0300#16
    let t := ran (.saveRegs 1#4) s
    s.i.toNat + (1#4).toNat ≤ 0xFFF ∧ ((t.setI s.i).setReg 0#4 0x00#8).i = s.i ∧
      (ran (.restoreRegs 1#4) ((t.setI s.i).setReg 0#4 0x00#8)).reg 0#4 = 0x0A#8 := by decide

theorem witness_DataRangeFaults_three_bytes :
    0xFFF < (State.reset.setI 0x0FFE#16).i.toNat + (3 - 1) ∧
      (ran (.ldB 0#4) (State.reset.setI 0xFFFF#16)).fault = some (.addressFault .dataBounds 0xFFFF#16) := by decide

theorem witness_DataRangeFaults_registers :
    0xFFF < (State.reset.setI 0x0FF1#16).i.toNat + ((0xF#4).toNat + 1 - 1) ∧
      (ran (.saveRegs 0xF#4) (State.reset.setI 0x0FF1#16)).fault =
        some (.addressFault .dataBounds 0x1000#16) ∧
      (ran (.restoreRegs 0#4) (State.reset.setI 0x1000#16)).fault =
        some (.addressFault .dataBounds 0x1000#16) := by decide

theorem witness_DataRangeFaults_sprite : 0 < (2#4).toNat ∧
    0xFFF < (State.reset.setI 0x0FFF#16).i.toNat + ((2#4).toNat - 1) ∧
      (ran (.drw 0#4 0#4 2#4) (State.reset.setI 0x0FFF#16)).fault =
        some (.addressFault .dataBounds 0x1000#16) := by decide

theorem witness_CanonicalMemoriesAreEqual :
    Memory.wf [(0x000, 0x01#8), (0x200, 0x12#8), (0xFFF, 0x01#8)] := by decide

/-- Height 0 with `I` outside memory (V-DRW-8). -/
theorem witness_DrawSpriteTogglesPixels_height_zero :
    (0#4 = 0#4 ∨ (State.reset.setI 0xFFFF#16).i.toNat + ((0#4).toNat - 1) ≤ 0xFFF) ∧
      (ran (.drw 0#4 0#4 0#4) (State.reset.setI 0xFFFF#16)).fault = none := by decide

/-- The last byte of memory as a sprite row (V-DRW-13). -/
theorem witness_DrawSpriteTogglesPixels_last_byte :
    let s := (State.reset.writeByte 0xFFF 0x80#8).setI 0x0FFF#16
    s.i.toNat + ((1#4).toNat - 1) ≤ 0xFFF ∧ (ran (.drw 0#4 0#4 1#4) s).pixel 0 0 = true := by decide

/-- Both clauses on one sprite: (0, 0) is covered, (1, 0) is not. -/
theorem witness_DrawSpriteTogglesPixels_covers :
    SpriteCovers ((State.reset.writeByte 0x300 0x80#8).setI 0x0300#16) 0#4 0#4 1#4 0 0 ∧
      ¬ SpriteCovers ((State.reset.writeByte 0x300 0x80#8).setI 0x0300#16) 0#4 0#4 1#4 1 0 := by
  refine ⟨⟨0, 0, by decide, by decide, by decide, by decide, by decide⟩, ?_⟩
  rintro ⟨r, c, hr, -, hx, -, hb⟩
  have hr0 : r = 0 := by
    have : (1#4).toNat = 1 := rfl
    omega
  have hc1 : c = 1 := by
    have : (((State.reset.writeByte 0x300 0x80#8).setI 0x0300#16).reg 0#4).toNat % 64 = 0 := by decide
    omega
  subst hr0 hc1
  exact absurd hb (by decide)

/-- The glyph "0" at (0, 0), the second time with a collision (V-DRW-2). -/
theorem witness_DrawTwiceRestoresDisplay :
    let t := ran (.drw 0#4 1#4 5#4) State.reset
    State.reset.i.toNat + ((5#4).toNat - 1) ≤ 0xFFF ∧ t.reg 0#4 = State.reset.reg 0#4 ∧
      t.reg 1#4 = State.reset.reg 1#4 ∧ (ran (.drw 0#4 1#4 5#4) t).reg 0xF#4 = 0x01#8 := by decide

/-- A state that no run from reset has met yet: full stack, stored bytes, a latched key. -/
theorem witness_StepKeepsMemoryStackAndKey :
    (((stacked 16).writeByte 0x300 0x07#8).setWaitKey true (some 0xA#4)).Inv ∧ waiting.Inv :=
  ⟨⟨by decide, by decide, by decide⟩, ⟨by decide, by decide, by decide⟩⟩

theorem witness_StepKeepsPcBounds :
    ((State.reset.setStack [0x0002#16, 0x1000#16]).setPc 0x10FE#16).PcInv := by
  refine ⟨by decide, fun a ha => ?_⟩
  simp only [State.setPc, State.setStack, List.mem_cons, List.not_mem_nil, or_false] at ha
  rcases ha with rfl | rfl <;> decide

theorem witness_StepKeepsKeyWaitWord : waiting.KeyWaitInv ∧ (next waiting).wait = true :=
  ⟨fun _ => ⟨by decide, by decide, 3#4, by decide⟩, by decide⟩

theorem witness_FaultsArePrecise : State.reset.fault = none ∧
    exec .ret State.reset = .next (State.reset.setFault .stackUnderflow) ∧
    (State.reset.setFault .stackUnderflow).fault = some .stackUnderflow :=
  ⟨rfl, rfl, rfl⟩

theorem witness_OnlyTheseInstructionsWrite :
    exec (.ldI 0x300#12) State.reset = .next (State.reset.setI 0x0300#16) := rfl

theorem witness_FlagRegisterWriters :
    exec (.ldImm 0xF#4 0x07#8) State.reset = .next (State.reset.setReg 0xF#4 0x07#8) ∧
      (State.reset.setReg 0xF#4 0x07#8).reg 0xF#4 ≠ State.reset.reg 0xF#4 :=
  ⟨rfl, by decide⟩

theorem witness_HeldKeysReachOnlyKeySkips : ∀ x, Instr.cls ≠ .skp x ∧ Instr.cls ≠ .sknp x :=
  fun _ => ⟨Instr.noConfusion, Instr.noConfusion⟩

/-- A frame of one tick, the least: one `Step`, then the timers count. -/
theorem witness_FrameIsRunOfItsSchedule :
    let s := ((State.reset.writeBytes 0x200 [0xF0#8, 0x15#8]).setReg 0#4 0x05#8)
    s.schedule = [] ∧ Host.Core.run Sys2Proof.core 2 (s.setSchedule (frameSchedule ⟨1, by decide⟩)) =
      frame ⟨1, by decide⟩ s :=
  ⟨rfl, rfl⟩

theorem witness_DelayTimerNeverRises :
    fire .timerTick (State.reset.setDt 0x02#8) =
        .next (((State.reset.setDt 0x02#8).setDt 0x01#8).setSt 0x00#8) ∧
      (∀ image, Transition.timerTick ≠ .reset image) ∧
      ∀ x, Transition.timerTick = .coreStep →
        decodeWord (fetchWord (State.reset.setDt 0x02#8)) ≠ .ok (.ldDTVx x) :=
  ⟨rfl, fun _ => Transition.noConfusion, fun _ => Transition.noConfusion⟩

end Sys2Proof.Tests
end

section
/-!
PROOF. The bitwise instructions of the spec's ALU group (R105 to R107): each writes one register and nothing else.
-/

namespace Sys2Proof.Machine

section Dispatch
variable (x y : RegIx) (s : State)

theorem exec_orReg : exec (.orReg x y) s = .next (s.setReg x (s.reg x ||| s.reg y)) := rfl

theorem exec_andReg : exec (.andReg x y) s = .next (s.setReg x (s.reg x &&& s.reg y)) := rfl

theorem exec_xorReg : exec (.xorReg x y) s = .next (s.setReg x (s.reg x ^^^ s.reg y)) := rfl

end Dispatch

/-- Settles O16: each operation writes `V[x]` alone, with a byte that `BitVec` gives bit by bit. -/
theorem bitwiseOperations : Obligations.BitwiseOperations := by
  intro x y s
  have frame (b : Byte) : RegsUnchanged [x] s (s.setReg x b) ∧ Unchanged [.v] s (s.setReg x b) :=
    ⟨regsUnchanged_setReg s x b, unchanged_setReg s x b⟩
  refine ⟨⟨_, exec_orReg x y s, fun k _ => ?or, frame _⟩, ⟨_, exec_andReg x y s, fun k _ => ?and, frame _⟩,
    ⟨_, exec_xorReg x y s, fun k _ => ?xor, frame _⟩⟩
  case or => rw [reg_setReg_same, BitVec.getLsbD_or]
  case and => rw [reg_setReg_same, BitVec.getLsbD_and]
  case xor => rw [reg_setReg_same, BitVec.getLsbD_xor]

end Sys2Proof.Machine
end

section
/-!
PROOF. The skips on an immediate (R135, R136): each writes `PC` and nothing else.
-/

namespace Sys2Proof.Machine

section Skip
variable (s : State) (c : Bool)

@[simp] theorem skipIf_pc : (s.skipIf c).pc = if c then s.pc + 2#16 else s.pc := by
  rw [skipIf_eq, setPc_pc]

theorem unchanged_skipIf : Unchanged [.pc] s (s.skipIf c) := by
  rw [skipIf_eq]
  exact unchanged_setPc s _

end Skip

section Dispatch
variable (x : RegIx) (nn : Byte) (s : State)

theorem exec_seImm : exec (.seImm x nn) s = .next (s.skipIf (s.reg x == nn)) := rfl

theorem exec_sneImm : exec (.sneImm x nn) s = .next (s.skipIf (s.reg x != nn)) := rfl

end Dispatch

/-- Settles O26: each instruction is a skip, and two bytes are equal exactly when their numbers are. -/
theorem skipsOnImmediate : Obligations.SkipsOnImmediate := by
  intro x nn s
  refine ⟨⟨_, exec_seImm x nn s, ?equal, unchanged_skipIf s _⟩,
    ⟨_, exec_sneImm x nn s, ?differs, unchanged_skipIf s _⟩⟩
  case equal => simp only [skipIf_pc, beq_iff_eq, BitVec.toNat_inj]
  case differs => simp only [skipIf_pc, bne_iff_ne, ite_not, BitVec.toNat_inj]

end Sys2Proof.Machine
end

section
/-!
PROOF. The three copies between a register and a timer (R150 to R152): each writes its destination and nothing else.
-/

namespace Sys2Proof.Machine

section Dispatch
variable (x : RegIx) (s : State)

theorem exec_ldVxDT : exec (.ldVxDT x) s = .next (s.setReg x s.dt) := rfl

theorem exec_ldDTVx : exec (.ldDTVx x) s = .next (s.setDt (s.reg x)) := rfl

theorem exec_ldSTVx :
    exec (.ldSTVx x) s = .next (s.setSt (if 1 < (s.reg x).toNat then s.reg x else 0x00#8)) := rfl

end Dispatch

/-- The floor of R152 read as a number: 0 and 1 become 0, every other byte stays. -/
theorem toNat_soundFloor (b : Byte) :
    (if 1 < b.toNat then b else 0x00#8).toNat = if b.toNat ≤ 1 then 0 else b.toNat := by
  rcases Nat.lt_or_ge 1 b.toNat with above | floored
  · rw [if_pos above, if_neg (Nat.not_le.mpr above)]
  · rw [if_neg (Nat.not_lt.mpr floored), if_pos floored, BitVec.toNat_zero]

/-- Settles O28: each instruction is one write of the state; only the sound timer's goes through a floor. -/
theorem timerRegisters : Obligations.TimerRegisters := by
  intro x s
  refine ⟨⟨_, exec_ldVxDT x s, reg_setReg_same s x s.dt, regsUnchanged_setReg s x s.dt, unchanged_setReg s x s.dt⟩,
    ⟨_, exec_ldDTVx x s, setDt_dt s (s.reg x), unchanged_setDt s (s.reg x)⟩,
    ⟨_, exec_ldSTVx x s, ?soundTimer, unchanged_setSt s _⟩⟩
  case soundTimer => rw [setSt_st, toNat_soundFloor]

end Sys2Proof.Machine
end

section
/-!
PROOF. The load of the index register (R170): it writes `I` and nothing else.
-/

namespace Sys2Proof.Machine

/-- Zero extension keeps an address as a number (R74): 12 bits fit in 16. -/
@[simp] theorem toNat_zextAddr (nnn : Addr12) : (zextAddr nnn).toNat = nnn.toNat :=
  BitVec.toNat_setWidth_of_le (by decide)

theorem exec_ldI (nnn : Addr12) (s : State) : exec (.ldI nnn) s = .next (s.setI (zextAddr nnn)) := rfl

/-- Settles O35: the instruction is one write of `I`, with an address that zero extension keeps. -/
theorem loadIndex : Obligations.LoadIndex := by
  intro nnn s
  refine ⟨_, exec_ldI nnn s, ?address, unchanged_setI s _⟩
  case address => rw [setI_i, toNat_zextAddr]

end Sys2Proof.Machine
end

section
/-!
PROOF. The clear of the display (R191): it writes `DISP` and nothing else.
-/

namespace Sys2Proof.Machine

/-- A state's pixels after a write of the display are those of the display written. -/
@[simp] theorem setDisp_pixel (s : State) (d : Display) (x y : Nat) :
    (s.setDisp d).pixel x y = Display.pixel d x y := rfl

theorem exec_cls (s : State) : exec .cls s = .next (s.setDisp Display.blank) := rfl

/-- Settles O43: the instruction is one write of `DISP`, with the display that has every pixel off. -/
theorem clearScreen : Obligations.ClearScreen := by
  intro s
  refine ⟨_, exec_cls s, fun x y => ?pixelOff, unchanged_setDisp s Display.blank⟩
  case pixelOff => rw [setDisp_pixel, pixel_blank]

end Sys2Proof.Machine
end

section
/-!
PROOF. The decoder and the encoder (R73, R78, R80): each undoes the other, and the refused words are the table's.
-/

namespace Sys2Proof

/-- The decoder reads back the word of every instruction: the family of one lemma per constructor. -/
theorem decodeWord_encode (i : Instr) : decodeWord (encode i) = .ok i := by
  cases i with
  | cls => exact Laws.RoundTrip.cls.2
  | ret => exact Laws.RoundTrip.ret.2
  | jp nnn => exact (Laws.RoundTrip.jp nnn).2
  | call nnn => exact (Laws.RoundTrip.call nnn).2
  | seImm x nn => exact (Laws.RoundTrip.seImm x nn).2
  | sneImm x nn => exact (Laws.RoundTrip.sneImm x nn).2
  | seReg x y => exact (Laws.RoundTrip.seReg x y).2
  | ldImm x nn => exact (Laws.RoundTrip.ldImm x nn).2
  | addImm x nn => exact (Laws.RoundTrip.addImm x nn).2
  | ldReg x y => exact (Laws.RoundTrip.ldReg x y).2
  | orReg x y => exact (Laws.RoundTrip.orReg x y).2
  | andReg x y => exact (Laws.RoundTrip.andReg x y).2
  | xorReg x y => exact (Laws.RoundTrip.xorReg x y).2
  | addReg x y => exact (Laws.RoundTrip.addReg x y).2
  | subReg x y => exact (Laws.RoundTrip.subReg x y).2
  | shr x y => exact (Laws.RoundTrip.shr x y).2
  | subn x y => exact (Laws.RoundTrip.subn x y).2
  | shl x y => exact (Laws.RoundTrip.shl x y).2
  | sneReg x y => exact (Laws.RoundTrip.sneReg x y).2
  | ldI nnn => exact (Laws.RoundTrip.ldI nnn).2
  | jpV0 nnn => exact (Laws.RoundTrip.jpV0 nnn).2
  | rnd x nn => exact (Laws.RoundTrip.rnd x nn).2
  | drw x y n => exact (Laws.RoundTrip.drw x y n).2
  | skp x => exact (Laws.RoundTrip.skp x).2
  | sknp x => exact (Laws.RoundTrip.sknp x).2
  | ldVxDT x => exact (Laws.RoundTrip.ldVxDT x).2
  | ldVxK x => exact (Laws.RoundTrip.ldVxK x).2
  | ldDTVx x => exact (Laws.RoundTrip.ldDTVx x).2
  | ldSTVx x => exact (Laws.RoundTrip.ldSTVx x).2
  | addI x => exact (Laws.RoundTrip.addI x).2
  | ldF x => exact (Laws.RoundTrip.ldF x).2
  | ldB x => exact (Laws.RoundTrip.ldB x).2
  | saveRegs x => exact (Laws.RoundTrip.saveRegs x).2
  | restoreRegs x => exact (Laws.RoundTrip.restoreRegs x).2

/-- The byte decoder on two bytes and more is the word decoder on their word. -/
theorem decode_eq_ok_iff {hi lo : Byte} {rest : List Byte} {i : Instr} :
    decode (hi :: lo :: rest) = .ok (i, rest) ↔ decodeWord (wordOfBytes hi lo) = .ok i := by
  cases h : decodeWord (wordOfBytes hi lo) <;> simp [decode, h]

/-- Settles O5: the two bytes make the encoded word again, and the decoder reads that word back. -/
theorem decodeOfEncodedInstruction : Obligations.DecodeOfEncodedInstruction := by
  intro i rest
  exact decode_eq_ok_iff.mpr (by rw [wordOfBytes_high_low, decodeWord_encode])

/-! ## From a word to its instruction and back -/

section Words
variable {w : Word} {o : BitVec 4}

/-! A word from its group and the fields that are left, by format (R72). -/

theorem append_nnn (ho : fieldOp w = o) : (o ++ fieldNNN w : Word) = w := by
  rw [← ho, word_of_op_nnn]

theorem append_x_nn (ho : fieldOp w = o) : (o ++ fieldX w ++ fieldNN w : Word) = w := by
  rw [← ho, word_of_op_x_nn]

theorem append_x_y_n (ho : fieldOp w = o) : (o ++ fieldX w ++ fieldY w ++ fieldN w : Word) = w := by
  rw [← ho, word_of_op_x_y_n]

theorem append_x_selector {nn : Byte} (ho : fieldOp w = o) (hn : fieldNN w = nn) :
    (o ++ fieldX w ++ nn : Word) = w := by
  rw [← hn, append_x_nn ho]

theorem append_x_y_selector {n : BitVec 4} (ho : fieldOp w = o) (hn : fieldN w = n) :
    (o ++ fieldX w ++ fieldY w ++ n : Word) = w := by
  rw [← hn, append_x_y_n ho]

end Words

/-- Settles O6: the group and the selector of a row are in the word, and the row's fields are the rest of it. -/
theorem encodeOfDecodedWord : Obligations.EncodeOfDecodedWord := by
  intro w i h
  rw [decodeWord_eq] at h
  generalize hk : kindOf w = k at h
  unfold kindOf at hk
  -- the cases are the arms of `kindOf` in order, groups 0x0 to 0xF
  split at hk
  case h_1 op =>
    unfold kindGroup0 at hk
    split_ifs at hk with hcls hret <;> subst hk <;> cases h
    · rw [← append_nnn op, hcls]; rfl
    · rw [← append_nnn op, hret]; rfl
  case h_2 op | h_3 op | h_11 op | h_12 op => subst hk; cases h; exact append_nnn op
  case h_4 op | h_5 op | h_7 op | h_8 op | h_13 op => subst hk; cases h; exact append_x_nn op
  case h_6 op | h_10 op =>
    split_ifs at hk with hn <;> subst hk <;> cases h
    exact append_x_y_selector op hn
  case h_14 op => subst hk; cases h; exact append_x_y_n op
  case h_9 op =>
    unfold kindGroup8 at hk
    split at hk <;> subst hk <;> cases h <;> exact append_x_y_selector op ‹_›
  case h_15 op =>
    unfold kindGroupE at hk
    split at hk <;> subst hk <;> cases h <;> exact append_x_selector op ‹_›
  case h_16 =>
    have op : fieldOp w = 0xF#4 := by apply op_eq_F <;> assumption
    unfold kindGroupF at hk
    split at hk <;> subst hk <;> cases h <;> exact append_x_selector op ‹_›

/-- Settles O7: within one group every other group's clause is false, and the group's own clause is what its selector
refuses. -/
theorem invalidWordsExactly : Obligations.InvalidWordsExactly := by
  intro w
  rw [decodeWord_error_iff, ← fieldOp_toNat, ← fieldN_toNat, ← fieldNN_toNat]
  have zero : fieldOp w = 0#4 ↔ w.toNat < 0x1000 := by
    rw [← BitVec.toNat_inj, fieldOp_toNat, BitVec.toNat_ofNat]
    omega
  unfold kindOf
  -- the cases are the arms of `kindOf` in order, groups 0x0 to 0xF
  split
  case h_1 op =>
    have low := zero.mp op
    rw [kindGroup0_invalid, fieldNNN_toNat, op]
    simp [low, Nat.mod_eq_of_lt low]
  case h_2 op | h_3 op | h_4 op | h_5 op | h_7 op | h_8 op | h_11 op | h_12 op | h_13 op | h_14 op =>
    simp [← zero, op]
  case h_6 op | h_10 op =>
    simp [← zero, op, ← BitVec.toNat_inj]
  case h_9 op =>
    rw [kindGroup8_invalid]; simp [← zero, op]
  case h_15 op =>
    rw [kindGroupE_invalid]; simp [← zero, op]
  case h_16 =>
    have op : fieldOp w = 0xF#4 := by apply op_eq_F <;> assumption
    rw [kindGroupF_invalid]; simp [← zero, op]

/-- Settles O57: the container is the format's field, zero-extended, and the kind says whether there is an
instruction. -/
theorem decodedRecordFields : Obligations.DecodedRecordFields := by
  intro w
  refine ⟨fieldX_toNat w, fieldY_toNat w, ?_, (decodeWord_error_iff w).symm, fun i => ?_⟩
  · change (immOf (formatOf (decodeRecord w).kind) w).toNat = _
    generalize formatOf (decodeRecord w).kind = format
    rcases format with _ | format
    · rfl
    cases format with
    | fixed | xy | x => rfl
    | nnn => exact (BitVec.toNat_setWidth_of_le (by decide)).trans (fieldNNN_toNat w)
    | xnn => exact (BitVec.toNat_setWidth_of_le (by decide)).trans (fieldNN_toNat w)
    | xyn => exact (BitVec.toNat_setWidth_of_le (by decide)).trans (fieldN_toNat w)
  · unfold decodeWord
    cases instrOf (decodeRecord w) <;> simp

/-- Settles O4: each word is one evaluation of the decoder. -/
theorem decodeReadsSpecWords : Obligations.DecodeReadsSpecWords := by
  unfold Obligations.DecodeReadsSpecWords
  decide

end Sys2Proof
end

section
/-!
PROOF. What each instruction does, as writes of the state: one equation for each kind that has one outcome, one for each
case of those that branch (`CALL`, `RET`, `LD Vx, K`), and the data-range fault of the four memory instructions.
-/

namespace Sys2Proof.Machine

section Dispatch
variable (x y : RegIx) (nn : Byte) (nnn : Addr12) (s : State)

theorem exec_ldImm : exec (.ldImm x nn) s = .next (s.setReg x nn) := rfl

theorem exec_addImm : exec (.addImm x nn) s = .next (s.setReg x (add8 (s.reg x) nn)) := rfl

theorem exec_ldReg : exec (.ldReg x y) s = .next (s.setReg x (s.reg y)) := rfl

theorem exec_addReg : exec (.addReg x y) s =
    .next (s.setResultThenFlag x (add8 (s.reg x) (s.reg y)) (carry (s.reg x) (s.reg y))) := rfl

theorem exec_subReg : exec (.subReg x y) s =
    .next (s.setResultThenFlag x (sub8 (s.reg x) (s.reg y)) (noBorrow (s.reg x) (s.reg y))) := rfl

theorem exec_subn : exec (.subn x y) s =
    .next (s.setResultThenFlag x (sub8 (s.reg y) (s.reg x)) (noBorrow (s.reg y) (s.reg x))) := rfl

theorem exec_shr : exec (.shr x y) s =
    .next (s.setResultThenFlag x (shiftRight8 (s.reg y)) (shiftedOutLow (s.reg y))) := rfl

theorem exec_shl : exec (.shl x y) s =
    .next (s.setResultThenFlag x (shiftLeft8 (s.reg y)) (shiftedOutHigh (s.reg y))) := rfl

theorem exec_rnd : exec (.rnd x nn) s = .next (s.afterDraw.setReg x (s.rngByte &&& nn)) := rfl

theorem exec_jp : exec (.jp nnn) s = .next (s.setPc (zextAddr nnn)) := rfl

theorem exec_jpV0 : exec (.jpV0 nnn) s = .next (s.setPc (zextAddr nnn + zextByte (s.reg 0#4))) := rfl

theorem exec_seReg : exec (.seReg x y) s = .next (s.skipIf (s.reg x == s.reg y)) := rfl

theorem exec_sneReg : exec (.sneReg x y) s = .next (s.skipIf (s.reg x != s.reg y)) := rfl

theorem exec_skp : exec (.skp x) s = .next (s.skipIf (s.keyHeld (s.reg x))) := rfl

theorem exec_sknp : exec (.sknp x) s = .next (s.skipIf (!s.keyHeld (s.reg x))) := rfl

theorem exec_addI :
    exec (.addI x) s = .next (s.setI (BitVec.ofNat 16 (s.i.toNat + (s.reg x).toNat))) := rfl

theorem exec_ldF : exec (.ldF x) s =
    .next (s.setI (BitVec.ofNat 16 (Config.fontBase + Config.glyphStride * (s.reg x).toNat))) := rfl

theorem exec_ldB : exec (.ldB x) s =
    withDataRange 3 (fun s => s.writeBytes (s.ea 0) (bcdDigits (s.reg x))) s := rfl

theorem exec_saveRegs : exec (.saveRegs x) s = withDataRange (regCount x)
    (fun s => (s.writeBytes (s.ea 0) (s.firstRegs (regCount x))).advanceI (regCount x)) s := rfl

theorem exec_restoreRegs : exec (.restoreRegs x) s = withDataRange (regCount x)
    (fun s => (s.loadRegs (regCount x)).advanceI (regCount x)) s := rfl

theorem exec_drw (n : BitVec 4) : exec (.drw x y n) s = withDataRange n.toNat
    (fun s => (s.setDisp (s.spriteBlit x y n).disp).setFlag (s.spriteBlit x y n).collision) s := rfl

end Dispatch

/-- Zero extension keeps a byte as a number (R74). -/
@[simp] theorem toNat_zextByte (b : Byte) : (zextByte b).toNat = b.toNat :=
  BitVec.toNat_setWidth_of_le (by decide)

theorem toNat_zextAddr_le (nnn : Addr12) : (zextAddr nnn).toNat ≤ 0xFFF :=
  (toNat_zextAddr nnn).trans_le (Nat.le_of_lt_succ nnn.isLt)

/-- The sum of a jump through `V0` does not wrap: it is at most 0xFFF + 0xFF (R134). -/
theorem toNat_jumpSum (nnn : Addr12) (b : Byte) :
    (zextAddr nnn + zextByte b).toNat = nnn.toNat + b.toNat := by
  have := nnn.isLt
  have := b.isLt
  rw [BitVec.toNat_add, toNat_zextAddr, toNat_zextByte]
  omega

/-! ## The instructions that branch -/

section Branches
variable {x : RegIx} {nnn : Addr12} {s : State}

theorem exec_call_room (h : s.sp < s.stackDepth.val) :
    exec (.call nnn) s = .next ((s.push s.pc).setPc (zextAddr nnn)) :=
  if_neg (Nat.not_le.mpr h)

theorem exec_call_full (h : s.stackDepth.val ≤ s.sp) :
    exec (.call nnn) s = .next (s.setFault (.stackOverflow nnn)) :=
  if_pos h

theorem exec_ret_last {l : List Word} {a : Word} (h : s.stack = l ++ [a]) :
    exec .ret s = .next ((s.setStack l).setPc a) := by
  simp [exec, execRet, h]

theorem exec_ret_empty (h : s.stack = []) : exec .ret s = .next (s.setFault .stackUnderflow) := by
  simp [exec, execRet, h, raise]

theorem exec_ldVxK_begins (hw : s.wait = false) :
    exec (.ldVxK x) s = .next ((s.setWaitKey true none).setPc (s.pc - 2#16)) := by
  simp [exec, execLdVxK, hw, rewindPc_eq]

theorem exec_ldVxK_waits (hw : s.wait = true) (hk : s.key = none) :
    exec (.ldVxK x) s = .next (s.setPc (s.pc - 2#16)) := by
  simp [exec, execLdVxK, hw, hk, rewindPc_eq]

theorem exec_ldVxK_takes {k : KeyCode} (hw : s.wait = true) (hk : s.key = some k) :
    exec (.ldVxK x) s = .next ((s.setReg x (k.setWidth 8)).setWaitKey false none) := by
  simp [exec, execLdVxK, hw, hk]

/-- The key that was taken is in `V[x]` as a number: 4 bits fit in a register (R153). -/
theorem toNat_takenKey (s : State) (x : RegIx) (k : KeyCode) :
    (((s.setReg x (k.setWidth 8)).setWaitKey false none).reg x).toNat = k.toNat := by
  rw [setWaitKey_reg, reg_setReg_same]
  exact BitVec.toNat_setWidth_of_le (by decide)

end Branches

/-- The stack is empty or has a last entry: the two cases of `RET`. -/
theorem stack_cases (s : State) : s.stack = [] ∨ ∃ l a, s.stack = l ++ [a] :=
  List.eq_nil_or_concat' s.stack

/-! ## The data range -/

/-- The length of the data range from `I` that an instruction checks before its first access (R53); 0 where it has
none. -/
def dataLen : Instr → Nat
  | .ldB _ => 3
  | .saveRegs x | .restoreRegs x => x.toNat + 1
  | .drw _ _ n => n.toNat
  | _ => 0

/-- A data range that passes 0xFFF is a fault with no effect, whichever instruction it belongs to (R53). -/
theorem exec_dataRange_fault {i : Instr} {s : State} (hl : 0 < dataLen i)
    (h : 0xFFF < s.i.toNat + (dataLen i - 1)) :
    exec i s = .next (s.setFault (.addressFault .dataBounds (lowestOutOfRange s.i))) := by
  have raised (effect : State → State) : withDataRange (dataLen i) effect s =
      .next (s.setFault (.addressFault .dataBounds (lowestOutOfRange s.i))) := by
    simp [withDataRange, dataFault_some hl h, raise]
  cases i with
  | ldB x => exact (exec_ldB x s).trans (raised _)
  | saveRegs x => exact (exec_saveRegs x s).trans (raised _)
  | restoreRegs x => exact (exec_restoreRegs x s).trans (raised _)
  | drw x y n => exact (exec_drw x y s n).trans (raised _)
  | _ => exact absurd hl (Nat.lt_irrefl 0)

end Sys2Proof.Machine
end

section
/-!
PROOF. What an instruction can do to the state, said once: it raises one of its own faults and changes nothing else, or
it writes fields and registers of its own and leaves every other one. The rules over all instructions follow from this.
-/

namespace Sys2Proof.Machine

/-! ## Footprints -/

/-- From `s` to `t` only the fields `fs` and, among the registers, only `rs` may have changed. Memory that is not listed
is the same list, not only the same byte for byte. -/
structure Footprint (fs : List Field) (rs : List RegIx) (s t : State) : Prop where
  fields : Unchanged fs s t
  regs : RegsUnchanged rs s t
  mem : .mem ∉ fs → t.mem = s.mem

namespace Footprint
variable {fs gs : List Field} {rs qs : List RegIx} {s t u : State}

/-- A footprint that does not list `V` or memory says of both that nothing changed. -/
theorem of_unchanged (h : Unchanged fs s t) (hv : .v ∉ fs) (hm : .mem ∉ fs → t.mem = s.mem) :
    Footprint fs [] s t :=
  ⟨h, fun r _ => h .v hv r, hm⟩

theorem trans (h : Footprint fs rs s t) (h' : Footprint gs qs t u) :
    Footprint (fs ++ gs) (rs ++ qs) s u where
  fields := h.fields.trans h'.fields
  regs := h.regs.trans h'.regs
  mem := by
    rw [List.mem_append, not_or]
    exact fun ⟨hf, hg⟩ => (h'.mem hg).trans (h.mem hf)

theorem mono (h : Footprint fs rs s t) (hf : fs ⊆ gs) (hr : rs ⊆ qs) : Footprint gs qs s t where
  fields := h.fields.mono fun _ hx => hf hx
  regs := fun r hq => h.regs r fun hx => hq (hr hx)
  mem := fun hg => h.mem fun hx => hg (hf hx)

/-- Any one field is the same or is listed. -/
theorem same_or_mem (h : Footprint fs rs s t) (f : Field) : f.same s t ∨ f ∈ fs :=
  (em (f ∈ fs)).symm.imp_left (h.fields f)

theorem mem_or_mem (h : Footprint fs rs s t) : t.mem = s.mem ∨ .mem ∈ fs :=
  (em (.mem ∈ fs)).symm.imp_left h.mem

end Footprint

section Updates
variable (s : State)

theorem footprint_setReg (x : RegIx) (b : Byte) : Footprint [.v] [x] s (s.setReg x b) :=
  ⟨unchanged_setReg s x b, regsUnchanged_setReg s x b, fun _ => rfl⟩

theorem footprint_setResultThenFlag (x : RegIx) (b : Byte) (c : Bool) :
    Footprint [.v] [x, 0xF#4] s (s.setResultThenFlag x b c) :=
  ⟨(unchanged_setResultThenFlag s x b c).1, (unchanged_setResultThenFlag s x b c).2, fun _ => rfl⟩

theorem footprint_setI (a : Word) : Footprint [.i] [] s (s.setI a) :=
  .of_unchanged (unchanged_setI s a) (by decide) fun _ => rfl

theorem footprint_setPc (a : Word) : Footprint [.pc] [] s (s.setPc a) :=
  .of_unchanged (unchanged_setPc s a) (by decide) fun _ => rfl

theorem footprint_skipIf (c : Bool) : Footprint [.pc] [] s (s.skipIf c) :=
  skipIf_eq s c ▸ footprint_setPc s _

theorem footprint_setDt (b : Byte) : Footprint [.dt] [] s (s.setDt b) :=
  .of_unchanged (unchanged_setDt s b) (by decide) fun _ => rfl

theorem footprint_setSt (b : Byte) : Footprint [.st] [] s (s.setSt b) :=
  .of_unchanged (unchanged_setSt s b) (by decide) fun _ => rfl

theorem footprint_setWaitKey (w : Bool) (k : Option KeyCode) :
    Footprint [.wait, .key] [] s (s.setWaitKey w k) :=
  .of_unchanged (unchanged_setWaitKey s w k) (by decide) fun _ => rfl

theorem footprint_setDisp (d : Display) : Footprint [.disp] [] s (s.setDisp d) :=
  .of_unchanged (unchanged_setDisp s d) (by decide) fun _ => rfl

theorem footprint_setStack (l : List Word) : Footprint [.stack] [] s (s.setStack l) :=
  .of_unchanged (unchanged_setStack s l) (by decide) fun _ => rfl

theorem footprint_setFault (f : Fault) : Footprint [.fault] [] s (s.setFault f) :=
  .of_unchanged (unchanged_setFault s f) (by decide) fun _ => rfl

theorem footprint_writeBytes (a : Nat) (l : List Byte) : Footprint [.mem] [] s (s.writeBytes a l) :=
  .of_unchanged (unchanged_writeBytes s a l) (by decide) fun h => absurd List.mem_cons_self h

theorem footprint_afterDraw : Footprint [.rngQueue, .draws] [] s s.afterDraw :=
  .of_unchanged (unchanged_afterDraw s) (by decide) fun _ => afterDraw_mem s

/-- The registers `V[0]` to `V[x]`. -/
def regsUpTo (x : RegIx) : List RegIx := (List.range (x.toNat + 1)).map (BitVec.ofNat 4)

@[simp] theorem mem_regsUpTo {x r : RegIx} : r ∈ regsUpTo x ↔ r ≤ x := by
  simp only [regsUpTo, List.mem_map, List.mem_range, BitVec.le_def]
  constructor
  · rintro ⟨k, hk, rfl⟩
    have := x.isLt
    rw [BitVec.toNat_ofNat]
    omega
  · exact fun h => ⟨r.toNat, by omega, by simp⟩

theorem footprint_loadRegs (x : RegIx) :
    Footprint [.v] (regsUpTo x) s (s.loadRegs (x.toNat + 1)) where
  fields := unchanged_loadRegs s _
  regs := fun r hr => by
    rw [mem_regsUpTo, BitVec.le_def] at hr
    rw [loadRegs_reg s (Nat.succ_le_of_lt x.isLt), if_neg (by omega)]
  mem := fun _ => loadRegs_mem s _

end Updates

/-! ## What each kind may write -/

/-- The fields that an instruction may write. -/
def writtenFields : Instr → List Field
  | .cls => [.disp]
  | .ret | .call _ => [.stack, .pc]
  | .jp _ | .jpV0 _ | .seImm _ _ | .sneImm _ _ | .seReg _ _ | .sneReg _ _ | .skp _ | .sknp _ => [.pc]
  | .ldImm _ _ | .addImm _ _ | .ldReg _ _ | .orReg _ _ | .andReg _ _ | .xorReg _ _ | .addReg _ _
  | .subReg _ _ | .shr _ _ | .subn _ _ | .shl _ _ | .ldVxDT _ => [.v]
  | .rnd _ _ => [.rngQueue, .draws, .v]
  | .drw _ _ _ => [.disp, .v]
  | .ldVxK _ => [.v, .wait, .key, .pc]
  | .ldDTVx _ => [.dt]
  | .ldSTVx _ => [.st]
  | .ldI _ | .addI _ | .ldF _ => [.i]
  | .ldB _ => [.mem]
  | .saveRegs _ => [.mem, .i]
  | .restoreRegs _ => [.v, .i]

/-- The registers that an instruction may write. -/
def writtenRegs : Instr → List RegIx
  | .ldImm x _ | .addImm x _ | .ldReg x _ | .orReg x _ | .andReg x _ | .xorReg x _ | .rnd x _
  | .ldVxDT x | .ldVxK x => [x]
  | .addReg x _ | .subReg x _ | .shr x _ | .subn x _ | .shl x _ => [x, 0xF#4]
  | .drw _ _ _ => [0xF#4]
  | .restoreRegs x => regsUpTo x
  | _ => []

/-- The instruction raises the fault in the state (R202, R203, R204). -/
inductive Raises (s : State) : Instr → Fault → Prop
  | overflow {nnn : Addr12} (full : s.stackDepth.val ≤ s.sp) : Raises s (.call nnn) (.stackOverflow nnn)
  | underflow (empty : s.stack = []) : Raises s .ret .stackUnderflow
  | dataBounds {i : Instr} (nonempty : 0 < dataLen i) (beyond : 0xFFF < s.i.toNat + (dataLen i - 1)) :
      Raises s i (.addressFault .dataBounds (lowestOutOfRange s.i))

theorem Raises.exec {i : Instr} {s : State} {f : Fault} (h : Raises s i f) :
    exec i s = .next (s.setFault f) := by
  cases h with
  | overflow full => exact exec_call_full full
  | underflow empty => exact exec_ret_empty empty
  | dataBounds nonempty beyond => exact exec_dataRange_fault nonempty beyond

/-- The instruction answers with a next state that differs in nothing but what it may write. -/
def ExecWrites (i : Instr) (s : State) : Prop :=
  ∃ t, exec i s = .next t ∧ Footprint (writtenFields i) (writtenRegs i) s t

theorem execWrites_call (nnn : Addr12) (s : State) (room : s.sp < s.stackDepth.val) :
    ExecWrites (.call nnn) s :=
  ⟨_, exec_call_room room, (footprint_setStack s _).trans (footprint_setPc _ _)⟩

theorem execWrites_ret (s : State) {l : List Word} {a : Word} (h : s.stack = l ++ [a]) :
    ExecWrites .ret s :=
  ⟨_, exec_ret_last h, (footprint_setStack s _).trans (footprint_setPc _ _)⟩

theorem execWrites_ldVxK (x : RegIx) (s : State) : ExecWrites (.ldVxK x) s := by
  cases hw : s.wait with
  | false =>
    exact ⟨_, exec_ldVxK_begins hw, ((footprint_setWaitKey s _ _).trans (footprint_setPc _ _)).mono
      (by simp [writtenFields]) (by simp)⟩
  | true =>
    cases hk : s.key with
    | none => exact ⟨_, exec_ldVxK_waits hw hk, (footprint_setPc s _).mono (by simp [writtenFields]) (by simp)⟩
    | some k =>
      exact ⟨_, exec_ldVxK_takes hw hk, ((footprint_setReg s _ _).trans (footprint_setWaitKey _ _ _)).mono
        (by simp [writtenFields]) (by simp [writtenRegs])⟩

theorem execWrites_ldB {x : RegIx} {s : State} (h : s.i.toNat ≤ 0xFFD) : ExecWrites (.ldB x) s :=
  ⟨_, exec_ldB_ok h, footprint_writeBytes s _ _⟩

theorem execWrites_saveRegs {x : RegIx} {s : State} (h : s.i.toNat + x.toNat ≤ 0xFFF) :
    ExecWrites (.saveRegs x) s :=
  ⟨_, exec_saveRegs_ok h, (footprint_writeBytes s _ _).trans (footprint_setI _ _)⟩

theorem execWrites_restoreRegs {x : RegIx} {s : State} (h : s.i.toNat + x.toNat ≤ 0xFFF) :
    ExecWrites (.restoreRegs x) s :=
  ⟨_, exec_restoreRegs_ok h, ((footprint_loadRegs s x).trans (footprint_setI _ _)).mono
    (by simp [writtenFields]) (by simp [writtenRegs])⟩

theorem execWrites_drw {x y : RegIx} {n : BitVec 4} {s : State}
    (h : n = 0#4 ∨ s.i.toNat + (n.toNat - 1) ≤ 0xFFF) : ExecWrites (.drw x y n) s :=
  ⟨_, exec_drw_ok h, (footprint_setDisp s _).trans (footprint_setReg _ flagReg _)⟩

/-- Says once what an instruction can do: raise one of its own faults, or write no more than it may. -/
theorem raises_or_execWrites (i : Instr) (s : State) : (∃ f, Raises s i f) ∨ ExecWrites i s := by
  cases i with
  | call nnn =>
    rcases Nat.lt_or_ge s.sp s.stackDepth.val with room | full
    · exact .inr (execWrites_call nnn s room)
    · exact .inl ⟨_, .overflow full⟩
  | ret =>
    rcases stack_cases s with empty | ⟨l, a, last⟩
    · exact .inl ⟨_, .underflow empty⟩
    · exact .inr (execWrites_ret s last)
  | ldB x =>
    rcases Nat.lt_or_ge 0xFFD s.i.toNat with beyond | inside
    · exact .inl ⟨_, .dataBounds (Nat.succ_pos _) (by simp only [dataLen]; omega)⟩
    · exact .inr (execWrites_ldB inside)
  | saveRegs x =>
    rcases Nat.lt_or_ge 0xFFF (s.i.toNat + x.toNat) with beyond | inside
    · exact .inl ⟨_, .dataBounds (Nat.succ_pos _) beyond⟩
    · exact .inr (execWrites_saveRegs inside)
  | restoreRegs x =>
    rcases Nat.lt_or_ge 0xFFF (s.i.toNat + x.toNat) with beyond | inside
    · exact .inl ⟨_, .dataBounds (Nat.succ_pos _) beyond⟩
    · exact .inr (execWrites_restoreRegs inside)
  | drw x y n =>
    by_cases inside : n = 0#4 ∨ s.i.toNat + (n.toNat - 1) ≤ 0xFFF
    · exact .inr (execWrites_drw inside)
    · rw [not_or, Nat.not_le, ← BitVec.toNat_inj] at inside
      exact .inl ⟨_, .dataBounds (Nat.pos_of_ne_zero inside.1) inside.2⟩
  | ldVxK x => exact .inr (execWrites_ldVxK x s)
  | ldImm | addImm | ldReg | orReg | andReg | xorReg | ldVxDT =>
    exact .inr ⟨_, rfl, footprint_setReg s _ _⟩
  | addReg | subReg | shr | subn | shl => exact .inr ⟨_, rfl, footprint_setResultThenFlag s _ _ _⟩
  | rnd => exact .inr ⟨_, rfl, (footprint_afterDraw s).trans (footprint_setReg _ _ _)⟩
  | seImm | sneImm | seReg | sneReg | skp | sknp => exact .inr ⟨_, rfl, footprint_skipIf s _⟩
  | jp | jpV0 => exact .inr ⟨_, rfl, footprint_setPc s _⟩
  | ldI | addI | ldF => exact .inr ⟨_, rfl, footprint_setI s _⟩
  | ldDTVx => exact .inr ⟨_, rfl, footprint_setDt s _⟩
  | ldSTVx => exact .inr ⟨_, rfl, footprint_setSt s _⟩
  | cls => exact .inr ⟨_, rfl, footprint_setDisp s _⟩

/-- Every instruction answers with a next state. -/
theorem exec_answers (i : Instr) (s : State) : ∃ t, exec i s = .next t := by
  rcases raises_or_execWrites i s with ⟨f, raised⟩ | ⟨t, ht, -⟩
  · exact ⟨_, raised.exec⟩
  · exact ⟨t, ht⟩

/-- What an instruction can do, read off the state it leaves. -/
theorem exec_next_cases {i : Instr} {s t : State} (h : exec i s = .next t) :
    (∃ f, Raises s i f ∧ t = s.setFault f) ∨ Footprint (writtenFields i) (writtenRegs i) s t := by
  rcases raises_or_execWrites i s with ⟨f, raised⟩ | ⟨u, hu, written⟩
  · exact .inl ⟨f, raised, Host.Outcome.next.inj (h.symm.trans raised.exec)⟩
  · exact .inr (Host.Outcome.next.inj (hu.symm.trans h) ▸ written)

/-- `FAULT` apart, an instruction writes no more than it may, whether or not it raises a fault. -/
theorem exec_footprint {i : Instr} {s t : State} (h : exec i s = .next t) :
    Footprint (.fault :: writtenFields i) (writtenRegs i) s t := by
  rcases exec_next_cases h with ⟨f, -, rfl⟩ | written
  · exact (footprint_setFault s f).mono (by simp) (by simp)
  · exact written.mono (List.subset_cons_self _ _) (List.Subset.refl _)

end Sys2Proof.Machine
end

section
/-!
PROOF. The invariants (R23, R26, R29, R132, R153): what every instruction does to memory, the stack, `PC` and the key
wait, and that no transition leads out of an invariant.
-/

namespace Sys2Proof.Machine

/-! ## Who writes which field -/

section Writers
variable {i : Instr}

theorem stack_writers (h : .stack ∈ writtenFields i) : i = .ret ∨ ∃ nnn, i = .call nnn := by
  cases i <;> simp [writtenFields] at h ⊢

theorem mem_writers (h : .mem ∈ writtenFields i) : ∃ x, i = .ldB x ∨ i = .saveRegs x := by
  cases i <;> simp [writtenFields] at h ⊢

theorem wait_writers (h : .wait ∈ writtenFields i) : ∃ x, i = .ldVxK x := by
  cases i <;> simp [writtenFields] at h ⊢

theorem key_writers (h : .key ∈ writtenFields i) : ∃ x, i = .ldVxK x := by
  cases i <;> simp [writtenFields] at h ⊢

theorem disp_writers (h : .disp ∈ writtenFields i) : i = .cls ∨ ∃ x y n, i = .drw x y n := by
  cases i <;> simp [writtenFields] at h ⊢

theorem dt_writers (h : .dt ∈ writtenFields i) : ∃ x, i = .ldDTVx x := by
  cases i <;> simp [writtenFields] at h ⊢

theorem st_writers (h : .st ∈ writtenFields i) : ∃ x, i = .ldSTVx x := by
  cases i <;> simp [writtenFields] at h ⊢

theorem i_writers (h : .i ∈ writtenFields i) :
    (∃ nnn, i = .ldI nnn) ∨ ∃ x, i = .addI x ∨ i = .ldF x ∨ i = .saveRegs x ∨ i = .restoreRegs x := by
  cases i <;> simp [writtenFields] at h ⊢

theorem rngQueue_writers (h : .rngQueue ∈ writtenFields i) : ∃ x nn, i = .rnd x nn := by
  cases i <;> simp [writtenFields] at h ⊢

theorem draws_writers (h : .draws ∈ writtenFields i) : ∃ x nn, i = .rnd x nn := by
  cases i <;> simp [writtenFields] at h ⊢

theorem keysHeld_not_written (i : Instr) : .keysHeld ∉ writtenFields i := by
  cases i <;> simp [writtenFields]

theorem stackDepth_not_written (i : Instr) : .stackDepth ∉ writtenFields i := by
  cases i <;> simp [writtenFields]

theorem schedule_not_written (i : Instr) : .schedule ∉ writtenFields i := by
  cases i <;> simp [writtenFields]

theorem fault_not_written (i : Instr) : .fault ∉ writtenFields i := by
  cases i <;> simp [writtenFields]

end Writers

section Exec
variable {i : Instr} {s t : State}

theorem exec_next_unique {u : State} (h : exec i s = .next t) (h' : exec i s = .next u) : t = u :=
  Host.Outcome.next.inj (h.symm.trans h')

/-- A field is the same after an instruction, or the instruction is one that may write it. -/
theorem exec_same_or_writes (h : exec i s = .next t) {f : Field} (hf : f ≠ .fault) :
    f.same s t ∨ f ∈ writtenFields i :=
  ((exec_footprint h).same_or_mem f).imp_right fun listed => (List.mem_cons.mp listed).resolve_left hf

theorem exec_mem_or_writes (h : exec i s = .next t) : t.mem = s.mem ∨ .mem ∈ writtenFields i :=
  (exec_footprint h).mem_or_mem.imp_right fun listed =>
    (List.mem_cons.mp listed).resolve_left Field.noConfusion

/-- An instruction leaves memory or stores bytes. -/
theorem exec_mem_cases (h : exec i s = .next t) : t.mem = s.mem ∨ ∃ a l, t.mem = (s.writeBytes a l).mem := by
  refine (exec_mem_or_writes h).elim .inl fun listed => ?_
  obtain ⟨x, rfl | rfl⟩ := mem_writers listed
  · rcases Nat.lt_or_ge 0xFFD s.i.toNat with beyond | inside
    · obtain rfl := exec_next_unique h (exec_dataRange_fault (Nat.succ_pos _) (by simp only [dataLen]; omega))
      exact .inl rfl
    · obtain rfl := exec_next_unique h (exec_ldB_ok inside)
      exact .inr ⟨_, _, rfl⟩
  · rcases Nat.lt_or_ge 0xFFF (s.i.toNat + x.toNat) with beyond | inside
    · obtain rfl := exec_next_unique h (exec_dataRange_fault (Nat.succ_pos _) beyond)
      exact .inl rfl
    · obtain rfl := exec_next_unique h (exec_saveRegs_ok inside)
      exact .inr ⟨_, _, rfl⟩

/-- An instruction leaves the stack, or pushes `PC` where there is room, or pops the last entry into `PC`. -/
theorem exec_stack_cases (h : exec i s = .next t) :
    t.stack = s.stack ∨ (s.sp < s.stackDepth.val ∧ t.stack = s.stack ++ [s.pc]) ∨
      s.stack = t.stack ++ [t.pc] := by
  refine (exec_same_or_writes (f := .stack) h Field.noConfusion).elim .inl fun listed => ?_
  rcases stack_writers listed with rfl | ⟨nnn, rfl⟩
  · rcases stack_cases s with empty | ⟨l, a, last⟩
    · obtain rfl := exec_next_unique h (exec_ret_empty empty)
      exact .inl rfl
    · obtain rfl := exec_next_unique h (exec_ret_last last)
      exact .inr (.inr last)
  · rcases Nat.lt_or_ge s.sp s.stackDepth.val with room | full
    · obtain rfl := exec_next_unique h (exec_call_room room)
      exact .inr (.inl ⟨room, rfl⟩)
    · obtain rfl := exec_next_unique h (exec_call_full full)
      exact .inl rfl

/-- An instruction leaves the key wait, or it is a key wait. -/
theorem exec_wait_cases (h : exec i s = .next t) :
    (t.wait = s.wait ∧ t.key = s.key) ∨ ∃ x, i = .ldVxK x := by
  rcases exec_same_or_writes (f := .wait) h Field.noConfusion with wait | listed
  · rcases exec_same_or_writes (f := .key) h Field.noConfusion with key | listed
    · exact .inl ⟨wait, key⟩
    · exact .inr (key_writers listed)
  · exact .inr (wait_writers listed)

/-- `LD Vx, K` ends with the machine waiting at the instruction, or with the key taken and no wait (R153). -/
theorem exec_ldVxK_cases {x : RegIx} (h : exec (.ldVxK x) s = .next t) :
    (t.wait = true ∧ t.pc = s.pc - 2#16 ∧ t.mem = s.mem ∧ t.fault = s.fault) ∨
      (t.wait = false ∧ t.key = none ∧ t.pc = s.pc) := by
  cases hw : s.wait with
  | false =>
    obtain rfl := exec_next_unique h (exec_ldVxK_begins hw)
    exact .inl ⟨rfl, rfl, rfl, rfl⟩
  | true =>
    cases hk : s.key with
    | none =>
      obtain rfl := exec_next_unique h (exec_ldVxK_waits hw hk)
      exact .inl ⟨hw, rfl, rfl, rfl⟩
    | some k =>
      obtain rfl := exec_next_unique h (exec_ldVxK_takes hw hk)
      exact .inr ⟨rfl, rfl, rfl⟩

/-- Where an instruction takes `PC`: it stays, it skips, it jumps to at most 0xFFF + 0xFF, it goes back to the
instruction, or it takes an entry of the stack. -/
theorem exec_pc_cases (h : exec i s = .next t) :
    t.pc = s.pc ∨ t.pc = s.pc + 2#16 ∨ t.pc.toNat ≤ 0x10FE ∨ t.pc = s.pc - 2#16 ∨ t.pc ∈ s.stack := by
  have skip (c : Bool) (ht : exec i s = .next (s.skipIf c)) : t.pc = s.pc ∨ t.pc = s.pc + 2#16 := by
    obtain rfl := exec_next_unique h ht
    cases c
    · exact .inl rfl
    · exact .inr rfl
  cases i with
  | seImm | sneImm | seReg | sneReg | skp | sknp => exact (skip _ rfl).imp_right .inl
  | jp nnn =>
    obtain rfl := exec_next_unique h (exec_jp nnn s)
    exact .inr (.inr (.inl ((toNat_zextAddr_le nnn).trans (by decide))))
  | jpV0 nnn =>
    obtain rfl := exec_next_unique h (exec_jpV0 nnn s)
    have := nnn.isLt
    have := (s.reg 0#4).isLt
    exact .inr (.inr (.inl (by rw [setPc_pc, toNat_jumpSum]; omega)))
  | call nnn =>
    rcases Nat.lt_or_ge s.sp s.stackDepth.val with room | full
    · obtain rfl := exec_next_unique h (exec_call_room room)
      exact .inr (.inr (.inl ((toNat_zextAddr_le nnn).trans (by decide))))
    · obtain rfl := exec_next_unique h (exec_call_full full)
      exact .inl rfl
  | ret =>
    rcases stack_cases s with empty | ⟨l, a, last⟩
    · obtain rfl := exec_next_unique h (exec_ret_empty empty)
      exact .inl rfl
    · obtain rfl := exec_next_unique h (exec_ret_last last)
      exact .inr (.inr (.inr (.inr (by simp [last]))))
  | ldVxK x =>
    rcases exec_ldVxK_cases h with ⟨-, back, -⟩ | ⟨-, -, stays⟩
    · exact .inr (.inr (.inr (.inl back)))
    · exact .inl stays
  | _ =>
    exact .inl ((exec_footprint h).fields .pc (by simp [writtenFields]))

end Exec

/-! ## The machine's transitions -/

/-- What a transition out of the core's `Step` can do, read off the state it leaves. -/
theorem coreStep_next_cases {s t : State} (h : coreStep s = .next t) :
    t = s ∨ (∃ f, fetchFault? s = some f ∧ t = s.setFault f) ∨
      (s.fault = none ∧ fetchFault? s = none ∧
        ((∃ e f, decodeWord (fetchWord s) = .error e ∧ t = s.advancePc.setFault f) ∨
          ∃ i, decodeWord (fetchWord s) = .ok i ∧ exec i s.advancePc = .next t)) := by
  rcases coreStep_cases s with ⟨-, hs⟩ | ⟨-, f, hf, hs⟩ | ⟨running, fetched, ⟨e, he, hs⟩ | ⟨i, hi, hs⟩⟩
  · exact .inl (Host.Outcome.next.inj (h.symm.trans hs))
  · exact .inr (.inl ⟨f, hf, Host.Outcome.next.inj (h.symm.trans hs)⟩)
  · exact .inr (.inr ⟨running, fetched, .inl ⟨e, _, he, Host.Outcome.next.inj (h.symm.trans hs)⟩⟩)
  · exact .inr (.inr ⟨running, fetched, .inr ⟨i, hi, hs.symm.trans h⟩⟩)

/-- What it takes for the machine never to leave `P`: the core's `Step` does not, and neither does a write of the
schedule, the timers, a released key while waiting, the held keys, or a reset. -/
structure Kept (P : State → Prop) : Prop where
  core : ∀ {s t}, P s → coreStep s = .next t → P t
  schedule : ∀ {s} l, P s → P (s.setSchedule l)
  timers : ∀ {s} dt st, P s → P ((s.setDt dt).setSt st)
  release : ∀ {s} k, s.wait = true → P s → P (s.setWaitKey true (some k))
  held : ∀ {s} keys, P s → P (s.withKeysHeld keys)
  reset : ∀ s image, P ((clearForReset s).writeBytes Config.programBase image)

theorem Kept.fire {P : State → Prop} (kept : Kept P) {tr : Transition} {s t : State} (hs : P s)
    (h : fire tr s = .next t) : P t := by
  cases tr with
  | coreStep => exact kept.core hs h
  | timerTick =>
    obtain rfl := Host.Outcome.next.inj h
    rcases timerTick_cases s with ⟨-, ht⟩ | ⟨-, ht⟩
    · exact ht ▸ kept.timers _ _ hs
    · rw [ht]; exact hs
  | keyRelease k =>
    obtain rfl := Host.Outcome.next.inj h
    rcases keyRelease_cases k s with ⟨-, waiting, ht⟩ | ⟨-, ht⟩
    · exact ht ▸ kept.release k waiting hs
    · rw [ht]; exact hs
  | keysHeld keys =>
    obtain rfl := Host.Outcome.next.inj h
    rcases presentKeys_cases keys s with ⟨-, ht⟩ | ⟨-, ht⟩
    · exact ht ▸ kept.held keys hs
    · rw [ht]; exact hs
  | reset image =>
    rcases resetWith_cases image s with ⟨-, ht⟩ | ⟨-, ht⟩
    · exact Host.Outcome.next.inj (ht.symm.trans h) ▸ kept.reset s image
    · cases ht.symm.trans h

theorem Kept.step {P : State → Prop} (kept : Kept P) {s t : State} (hs : P s) (h : step s = .next t) :
    P t := by
  unfold Machine.step nextTransition at h
  split at h
  · exact kept.core hs h
  · exact kept.fire (kept.schedule _ hs) h

/-! ## Memory, stack and latched key -/

theorem exec_keeps_inv {i : Instr} {s t : State} (hs : s.Inv) (h : exec i s = .next t) : t.Inv := by
  obtain ⟨hmem, hstack, hkey⟩ := hs
  have depth : t.stackDepth = s.stackDepth :=
    (exec_same_or_writes (f := .stackDepth) h Field.noConfusion).resolve_right (stackDepth_not_written i)
  refine ⟨?mem, ?stack, ?key⟩
  case mem =>
    rcases exec_mem_cases h with same | ⟨a, l, stored⟩
    · exact same ▸ hmem
    · exact stored ▸ writeBytes_wf hmem a l
  case stack =>
    rw [depth]
    unfold State.sp at hstack ⊢
    rcases exec_stack_cases h with same | ⟨room, pushed⟩ | popped
    · exact same ▸ hstack
    · rw [pushed, List.length_append]
      exact room
    · rw [popped, List.length_append] at hstack
      exact Nat.le_of_succ_le hstack
  case key =>
    intro hw
    rcases exec_wait_cases h with ⟨wait, key⟩ | ⟨x, rfl⟩
    · exact key.trans (hkey (wait.symm.trans hw))
    · rcases exec_ldVxK_cases h with ⟨waits, -⟩ | ⟨-, none, -⟩
      · exact absurd (waits.symm.trans hw) Bool.noConfusion
      · exact none

theorem kept_inv : Kept State.Inv where
  core := by
    intro s t hs h
    rcases coreStep_next_cases h with rfl | ⟨f, -, rfl⟩ | ⟨-, -, ⟨e, f, -, rfl⟩ | ⟨i, -, hi⟩⟩
    · exact hs
    · exact hs
    · exact hs
    · exact exec_keeps_inv (s := s.advancePc) hs hi
  schedule := fun _ hs => hs
  timers := fun _ _ hs => hs
  release := fun _ _ ⟨hmem, hstack, _⟩ => ⟨hmem, hstack, Bool.noConfusion⟩
  held := fun _ hs => hs
  reset := fun s image =>
    ⟨writeBytes_wf wf_nil _ _, by simp [State.sp, clearForReset], fun _ => by simp [clearForReset]⟩

/-- Settles O47: the canonical form, the depth and the latched key are kept by every transition. -/
theorem stepKeepsMemoryStackAndKey : Obligations.StepKeepsMemoryStackAndKey :=
  fun _ _ hs h => kept_inv.step hs h

/-! ## `PC` and the return addresses -/

/-- The advanced `PC` of an instruction that was fetched: even and between 0x002 and 0x1000 (R130, R132). -/
theorem advancePc_bounds {s : State} (h : fetchFault? s = none) :
    s.advancePc.pc.toNat % 2 = 0 ∧ 0x002 ≤ s.advancePc.pc.toNat ∧ s.advancePc.pc.toNat ≤ 0x1000 := by
  rw [fetchFault_none_iff] at h
  have pc : s.advancePc.pc.toNat = s.pc.toNat + 2 := by
    rw [advancePc_eq, setPc_pc, BitVec.toNat_add, BitVec.toNat_ofNat]
    omega
  omega

theorem exec_keeps_pcInv {i : Instr} {s t : State} (hs : s.PcInv)
    (hpc : s.pc.toNat % 2 = 0 ∧ 0x002 ≤ s.pc.toNat ∧ s.pc.toNat ≤ 0x1000) (h : exec i s = .next t) :
    t.PcInv := by
  obtain ⟨-, returns⟩ := hs
  obtain ⟨even, low, high⟩ := hpc
  refine ⟨?pc, ?returns⟩
  case pc =>
    rcases exec_pc_cases h with stays | skips | jumps | back | popped
    · rw [stays]; omega
    · rw [skips, BitVec.toNat_add, BitVec.toNat_ofNat]; omega
    · exact jumps
    · rw [back]; bv_omega
    · exact (returns _ popped).2.2.trans (by decide)
  case returns =>
    intro a ha
    rcases exec_stack_cases h with same | ⟨-, pushed⟩ | popped
    · exact returns a (same ▸ ha)
    · rcases List.mem_append.mp (pushed ▸ ha) with old | new
      · exact returns a old
      · obtain rfl := List.mem_singleton.mp new
        exact ⟨even, low, high⟩
    · exact returns a (popped ▸ List.mem_append_left _ ha)

theorem kept_pcInv : Kept State.PcInv where
  core := by
    intro s t hs h
    rcases coreStep_next_cases h with rfl | ⟨f, -, rfl⟩ | ⟨-, fetched, ⟨e, f, -, rfl⟩ | ⟨i, -, hi⟩⟩
    · exact hs
    · exact hs
    · exact ⟨(advancePc_bounds fetched).2.2.trans (by decide), hs.2⟩
    · have bounds := advancePc_bounds fetched
      exact exec_keeps_pcInv ⟨bounds.2.2.trans (by decide), hs.2⟩ bounds hi
  schedule := fun _ hs => hs
  timers := fun _ _ hs => hs
  release := fun _ _ hs => hs
  held := fun _ hs => hs
  reset := fun s image => by simp [State.PcInv, clearForReset, Config.programBase]

/-- Settles O48: an instruction that was fetched starts from bounded values, and takes no others. -/
theorem stepKeepsPcBounds : Obligations.StepKeepsPcBounds :=
  fun _ _ hs h => kept_pcInv.step hs h

/-! ## The word of the key wait -/

theorem fetchFault_of_pc {s t : State} (hpc : t.pc = s.pc) : fetchFault? t = fetchFault? s := by
  simp only [fetchFault?, hpc]

theorem fetchWord_of_pc_mem {s t : State} (hpc : t.pc = s.pc) (hm : t.mem = s.mem) :
    fetchWord t = fetchWord s := by
  simp only [fetchWord, State.readByte, hpc, hm]

/-- A fetched key wait leaves the machine at the same word when it leaves it waiting (R153). -/
theorem exec_ldVxK_keeps_word {x : RegIx} {s t : State} (running : s.fault = none)
    (fetched : fetchFault? s = none) (word : decodeWord (fetchWord s) = .ok (.ldVxK x))
    (h : exec (.ldVxK x) s.advancePc = .next t) : t.KeyWaitInv := by
  intro waits
  rcases exec_ldVxK_cases h with ⟨-, back, hm, hf⟩ | ⟨done, -, -⟩
  · have hpc : t.pc = s.pc := by rw [back, advancePc_eq, setPc_pc, BitVec.add_sub_cancel]
    exact ⟨hf.trans running, (fetchFault_of_pc hpc).trans fetched, x, fetchWord_of_pc_mem hpc hm ▸ word⟩
  · exact absurd (waits.symm.trans done) Bool.noConfusion

theorem kept_keyWaitInv : Kept State.KeyWaitInv where
  core := by
    intro s t hs h
    rcases coreStep_next_cases h with
      rfl | ⟨f, faulty, rfl⟩ | ⟨running, fetched, ⟨e, f, invalid, rfl⟩ | ⟨i, hi, ht⟩⟩
    · exact hs
    · intro waits
      obtain ⟨-, fetched, -⟩ := hs waits
      cases fetched.symm.trans faulty
    · intro waits
      obtain ⟨-, -, x, word⟩ := hs waits
      cases word.symm.trans invalid
    · rcases exec_wait_cases ht with ⟨wait, -⟩ | ⟨x, rfl⟩
      · intro waits
        obtain ⟨-, -, x, word⟩ := hs (wait.symm.trans waits)
        obtain rfl : i = .ldVxK x := Except.ok.inj (hi.symm.trans word)
        exact exec_ldVxK_keeps_word running fetched hi ht waits
      · exact exec_ldVxK_keeps_word running fetched hi ht
  schedule := fun _ hs => hs
  timers := fun _ _ hs => hs
  release := fun _ waits hs _ => hs waits
  held := fun _ hs => hs
  reset := fun s image waits => by simp [clearForReset] at waits

/-- Settles O49: while the machine waits the fetched word is a key wait, which goes back to itself. -/
theorem stepKeepsKeyWaitWord : Obligations.StepKeepsKeyWaitWord :=
  fun _ _ hs h => kept_keyWaitInv.step hs h

/-- Settles O46: at reset memory and stack are empty, `PC` is 0x200 and nothing waits. -/
theorem invariantsAtReset : Obligations.InvariantsAtReset :=
  ⟨⟨reset_mem_wf, by decide, fun _ => rfl⟩, ⟨by decide, by simp [State.reset]⟩, fun waits => by cases waits⟩

end Sys2Proof.Machine
end

section
/-!
PROOF. The rules over all instructions and transitions (R21, R22, R26, R50, R190, R206, R207, R250): precise faults, who
writes what, and what every transition answers.
-/

namespace Sys2Proof.Machine

/-! ## Faults and writers -/

/-- Only the four memory instructions have a data range (R53). -/
theorem dataLen_pos {i : Instr} (h : 0 < dataLen i) :
    (∃ x, i = .ldB x) ∨ (∃ x, i = .saveRegs x) ∨ (∃ x, i = .restoreRegs x) ∨ ∃ x y n, i = .drw x y n := by
  cases i <;> simp [dataLen] at h ⊢

/-- Settles O50: an instruction that raises no fault leaves `FAULT`, and one that does writes nothing else. -/
theorem faultsArePrecise : Obligations.FaultsArePrecise := by
  intro i s t f running h hf
  rcases exec_next_cases h with ⟨g, raised, rfl⟩ | written
  · obtain rfl : g = f := Option.some.inj hf
    refine ⟨unchanged_setFault s g, ?_⟩
    cases raised with
    | overflow full => exact .inl ⟨_, rfl, rfl, full⟩
    | underflow empty => exact .inr (.inl ⟨rfl, rfl, List.length_eq_zero_iff.mpr empty⟩)
    | dataBounds nonempty beyond =>
      refine .inr (.inr ⟨_, rfl, ?_, dataLen_pos nonempty⟩)
      rw [lowestOutOfRange_toNat]
      omega
  · have same : t.fault = s.fault := written.fields .fault (fault_not_written i)
    cases (running.symm.trans same.symm).trans hf

theorem exec_rng_or_rnd {i : Instr} {s t : State} (h : exec i s = .next t) :
    (t.rngQueue = s.rngQueue ∧ t.draws = s.draws) ∨ ∃ x nn, i = .rnd x nn := by
  rcases exec_same_or_writes (f := .rngQueue) h Field.noConfusion with queue | listed
  · rcases exec_same_or_writes (f := .draws) h Field.noConfusion with draws | listed
    · exact .inl ⟨queue, draws⟩
    · exact .inr (draws_writers listed)
  · exact .inr (rngQueue_writers listed)

/-- Settles O51: each field is the same or listed, and only the named instructions list it. -/
theorem onlyTheseInstructionsWrite : Obligations.OnlyTheseInstructionsWrite := by
  intro i s t h
  have same_or_writes (f : Field) (hf : f ≠ .fault) := exec_same_or_writes h hf
  exact ⟨(same_or_writes .disp Field.noConfusion).imp_right disp_writers,
    (same_or_writes .stack Field.noConfusion).imp_right stack_writers,
    (exec_mem_or_writes h).imp_right mem_writers,
    (same_or_writes .dt Field.noConfusion).imp_right dt_writers,
    (same_or_writes .st Field.noConfusion).imp_right st_writers,
    exec_wait_cases h,
    (same_or_writes .i Field.noConfusion).imp_right i_writers,
    exec_rng_or_rnd h,
    (same_or_writes .keysHeld Field.noConfusion).resolve_right (keysHeld_not_written i),
    (same_or_writes .stackDepth Field.noConfusion).resolve_right (stackDepth_not_written i),
    (same_or_writes .schedule Field.noConfusion).resolve_right (schedule_not_written i)⟩

/-- Settles O52: a register changes only when it is among those the instruction may write. -/
theorem flagRegisterWriters : Obligations.FlagRegisterWriters := by
  intro i s t h changed
  have listed : 0xF#4 ∈ writtenRegs i := by
    by_contra absent
    exact changed ((exec_footprint h).regs _ absent)
  cases i with
  | restoreRegs x =>
    have top : x = 0xF#4 := by
      rw [writtenRegs, mem_regsUpTo] at listed
      bv_omega
    simp [top]
  | _ => simp_all [writtenRegs, @eq_comm _ 0xF#4]

/-! ## Transitions -/

/-- The core's `Step` always answers with a next state. -/
theorem coreStep_answers (s : State) : ∃ t, coreStep s = .next t := by
  rcases coreStep_cases s with ⟨-, h⟩ | ⟨-, f, -, h⟩ | ⟨-, -, ⟨e, -, h⟩ | ⟨i, -, h⟩⟩
  · exact ⟨_, h⟩
  · exact ⟨_, h⟩
  · exact ⟨_, h⟩
  · exact h ▸ exec_answers i _

/-- Settles O14: every transition answers but a reset with an image that is too long. -/
theorem stepAlwaysAnswers : Obligations.StepAlwaysAnswers := by
  intro s
  unfold step nextTransition
  cases hs : s.schedule with
  | nil => exact .inl (coreStep_answers s)
  | cons tr rest =>
    cases tr with
    | coreStep => exact .inl (coreStep_answers _)
    | timerTick | keyRelease | keysHeld => exact .inl ⟨_, rfl⟩
    | reset image =>
      rcases resetWith_cases image (s.setSchedule rest) with ⟨-, h⟩ | ⟨long, h⟩
      · exact .inl ⟨_, h⟩
      · exact .inr ⟨image, rest, rfl, long, h⟩

theorem coreStep_halted {s : State} (h : s.fault ≠ none) : coreStep s = .next s := by
  rcases coreStep_cases s with ⟨-, hs⟩ | ⟨running, -⟩ | ⟨running, -⟩
  · exact hs
  · exact absurd running h
  · exact absurd running h

theorem coreStep_fetchFault {s : State} {f : Fault} (running : s.fault = none) (h : fetchFault? s = some f) :
    coreStep s = .next (s.setFault f) := by
  simp [coreStep, running, h, raise]

theorem coreStep_invalid {s : State} {e : Reject} (running : s.fault = none) (fetched : fetchFault? s = none)
    (h : decodeWord (fetchWord s) = .error e) :
    coreStep s = .next (s.advancePc.setFault (.invalidInstruction (fetchWord s))) := by
  simp [coreStep, running, fetched, runWord, h, raise]

theorem timerTick_halted {s : State} (h : s.fault ≠ none) : timerTick s = s :=
  (timerTick_cases s).elim (fun ⟨running, _⟩ => absurd running h) And.right

theorem timerTick_running {s : State} (h : s.fault = none) :
    timerTick s = (s.setDt (countDown s.dt)).setSt (countDown s.st) :=
  (timerTick_cases s).elim And.right fun ⟨halted, _⟩ => absurd h halted

theorem keyRelease_waiting {s : State} (running : s.fault = none) (waits : s.wait = true) (k : KeyCode) :
    keyRelease k s = s.setWaitKey true (some k) := by
  rcases keyRelease_cases k s with ⟨-, -, h⟩ | ⟨halted | idle, -⟩
  · exact h
  · exact absurd running halted
  · exact absurd (waits.symm.trans idle) Bool.noConfusion

/-- Settles O11: each transition but `Reset` looks at `FAULT` first. -/
theorem haltedMachineStandsStill : Obligations.HaltedMachineStandsStill := by
  intro s tr halted noReset
  cases tr with
  | coreStep => exact coreStep_halted halted
  | timerTick => exact congrArg _ (timerTick_halted halted)
  | keyRelease k =>
    rcases keyRelease_cases k s with ⟨running, -⟩ | ⟨-, h⟩
    · exact absurd running halted
    · exact congrArg _ h
  | keysHeld keys =>
    rcases presentKeys_cases keys s with ⟨running, -⟩ | ⟨-, h⟩
    · exact absurd running halted
    · exact congrArg _ h
  | reset image => exact absurd rfl (noReset image)

/-- Settles O12: it is the second equation of the machine's step. -/
theorem scheduledTransitionMovesFirst : Obligations.ScheduledTransitionMovesFirst := by
  intro s tr rest h
  simp only [step, nextTransition, h]

/-- Settles O56: `DT` is among the fields that only `LD DT, Vx` may write, and the key events do not list it. -/
theorem delayTimerNeverRises : Obligations.DelayTimerNeverRises := by
  intro tr s t h noReset noLoad
  cases tr with
  | coreStep =>
    rcases coreStep_next_cases h with rfl | ⟨f, -, rfl⟩ | ⟨-, -, ⟨e, f, -, rfl⟩ | ⟨i, hi, ht⟩⟩
    · exact .inl rfl
    · exact .inl rfl
    · exact .inl rfl
    · refine .inl ((exec_same_or_writes (f := .dt) ht Field.noConfusion).resolve_right fun listed => ?_)
      obtain ⟨x, rfl⟩ := dt_writers listed
      exact noLoad x rfl hi
  | timerTick =>
    obtain rfl := Host.Outcome.next.inj h
    rcases timerTick_cases s with ⟨-, ht⟩ | ⟨-, ht⟩
    · rw [ht, setSt_dt, setDt_dt]
      rcases Nat.eq_zero_or_pos s.dt.toNat with zero | pos
      · exact .inl (BitVec.eq_of_toNat_eq (by rw [countDown_toNat, zero]))
      · exact .inr ⟨rfl, by rw [countDown_toNat]; omega⟩
    · exact .inl (congrArg State.dt ht)
  | keyRelease k =>
    obtain rfl := Host.Outcome.next.inj h
    rcases keyRelease_cases k s with ⟨-, -, ht⟩ | ⟨-, ht⟩
    · exact .inl ((congrArg State.dt ht).trans (setWaitKey_dt s _ _))
    · exact .inl (congrArg State.dt ht)
  | keysHeld keys =>
    obtain rfl := Host.Outcome.next.inj h
    rcases presentKeys_cases keys s with ⟨-, ht⟩ | ⟨-, ht⟩
    · exact .inl ((congrArg State.dt ht).trans rfl)
    · exact .inl (congrArg State.dt ht)
  | reset image => exact absurd rfl (noReset image)

end Sys2Proof.Machine
end

section
/-!
PROOF. Single steps and runs, and what lies beside the core (R7, R31, R54, R130, R153, R201, R211, R212): who sees the held
keys and the schedule, runs over many steps, and the word that a step fetches.
-/

namespace Sys2Proof.Machine

/-! ## What the host holds beside the core -/

/-- The state with another level on the port `KEYS_HELD` and another schedule, where one is given. -/
def withHost (held : Option (BitVec 16)) (l : Option (List Transition)) (s : State) : State :=
  (s.withKeysHeld (held.getD s.keysHeld)).setSchedule (l.getD s.schedule)

section Host
variable (held : Option (BitVec 16)) (l : Option (List Transition)) (s : State)

theorem skipIf_withHost (c : Bool) : (withHost held l s).skipIf c = withHost held l (s.skipIf c) := by
  cases c <;> rfl

theorem rngByte_withHost : (withHost held l s).rngByte = s.rngByte := rfl

theorem afterDraw_withHost : (withHost held l s).afterDraw = withHost held l s.afterDraw := by
  unfold State.afterDraw
  cases hq : s.rngQueue <;> simp [withHost, State.withKeysHeld, State.setSchedule, hq]

theorem writeBytes_withHost (a : Nat) (bs : List Byte) :
    (withHost held l s).writeBytes a bs = withHost held l (s.writeBytes a bs) := by
  simp only [withHost, writeBytes_setSchedule, writeBytes_withKeysHeld, writeBytes_keysHeld, writeBytes_schedule]

theorem loadRegs_withHost (n : Nat) : (withHost held l s).loadRegs n = withHost held l (s.loadRegs n) := by
  simp only [withHost, loadRegs_setSchedule, loadRegs_withKeysHeld, loadRegs_keysHeld, loadRegs_schedule]

/-- The data-range check sees only `I`, so that an effect decides what an instruction with a data range does. -/
theorem withDataRange_withHost {len : Nat} {effect : State → State}
    (h : effect (withHost held l s) = withHost held l (effect s)) :
    withDataRange len effect (withHost held l s) = mapNext (withHost held l) (withDataRange len effect s) := by
  have same : (withHost held l s).dataFault? len = s.dataFault? len := rfl
  unfold withDataRange
  rw [same, h]
  cases s.dataFault? len <;> rfl

/-- No instruction sees the schedule, and only the two key skips see the held keys. -/
theorem exec_withHost {i : Instr} (unseen : held = none ∨ ∀ x, i ≠ .skp x ∧ i ≠ .sknp x) :
    exec i (withHost held l s) = mapNext (withHost held l) (exec i s) := by
  cases i with
  | call nnn =>
    rcases Nat.lt_or_ge s.sp s.stackDepth.val with room | full
    · rw [exec_call_room room, exec_call_room (s := withHost held l s) room]; rfl
    · rw [exec_call_full full, exec_call_full (s := withHost held l s) full]; rfl
  | ret =>
    rcases stack_cases s with empty | ⟨_, _, last⟩
    · rw [exec_ret_empty empty, exec_ret_empty (s := withHost held l s) empty]; rfl
    · rw [exec_ret_last last, exec_ret_last (s := withHost held l s) last]; rfl
  | seImm | sneImm | seReg | sneReg => exact congrArg _ (skipIf_withHost held l s _)
  | skp x =>
    obtain rfl := unseen.resolve_right fun h => (h x).1 rfl
    exact congrArg _ (skipIf_withHost none l s _)
  | sknp x =>
    obtain rfl := unseen.resolve_right fun h => (h x).2 rfl
    exact congrArg _ (skipIf_withHost none l s _)
  | rnd x nn =>
    rw [exec_rnd, exec_rnd, rngByte_withHost, afterDraw_withHost]; rfl
  | ldVxK x =>
    cases hw : s.wait with
    | false => rw [exec_ldVxK_begins hw, exec_ldVxK_begins (s := withHost held l s) hw]; rfl
    | true =>
      cases hk : s.key with
      | none => rw [exec_ldVxK_waits hw hk, exec_ldVxK_waits (s := withHost held l s) hw hk]; rfl
      | some k => rw [exec_ldVxK_takes hw hk, exec_ldVxK_takes (s := withHost held l s) hw hk]; rfl
  | ldB x =>
    rw [exec_ldB, exec_ldB]
    exact withDataRange_withHost held l s (writeBytes_withHost held l s _ _)
  | saveRegs x =>
    rw [exec_saveRegs, exec_saveRegs]
    exact withDataRange_withHost held l s
      (congrArg (·.advanceI (regCount x)) (writeBytes_withHost held l s _ _))
  | restoreRegs x =>
    rw [exec_restoreRegs, exec_restoreRegs]
    exact withDataRange_withHost held l s (congrArg (·.advanceI (regCount x)) (loadRegs_withHost held l s _))
  | drw x y n =>
    rw [exec_drw, exec_drw]
    exact withDataRange_withHost held l s rfl
  | _ => rfl

end Host

/-- Settles O53: the case of another level and the same schedule. -/
theorem heldKeysReachOnlyKeySkips : Obligations.HeldKeysReachOnlyKeySkips :=
  fun _ s held unseen => exec_withHost (some held) none s (.inr unseen)

/-- Settles O54: the core's `Step` looks at `FAULT`, `PC` and memory, and then runs an instruction. -/
theorem scheduleDoesNotReachCore : Obligations.ScheduleDoesNotReachCore := by
  intro s l
  change coreStep (withHost none (some l) s) = mapNext (withHost none (some l)) (coreStep s)
  rcases coreStep_cases s with
    ⟨halted, h⟩ | ⟨running, f, hf, h⟩ | ⟨running, fetched, ⟨e, he, h⟩ | ⟨i, hi, h⟩⟩
  · rw [h, coreStep_halted (s := withHost none (some l) s) halted]; rfl
  · rw [h, coreStep_fetchFault (s := withHost none (some l) s) running hf]; rfl
  · rw [h, coreStep_invalid (s := withHost none (some l) s) running fetched he]; rfl
  · rw [h, coreStep_decoded (s := withHost none (some l) s) running fetched hi]
    exact exec_withHost none (some l) s.advancePc (.inl rfl)

/-! ## The frame -/

theorem coreStep_keeps_schedule {s t : State} (h : coreStep s = .next t) : t.schedule = s.schedule := by
  rcases coreStep_next_cases h with rfl | ⟨f, -, rfl⟩ | ⟨-, -, ⟨e, f, -, rfl⟩ | ⟨i, -, ht⟩⟩
  · rfl
  · rfl
  · rfl
  · exact (exec_same_or_writes (f := .schedule) ht Field.noConfusion).resolve_right (schedule_not_written i)

theorem frameSteps_halted {s : State} (h : s.fault ≠ none) (n : Nat) : frameSteps n s = .next s := by
  cases n with
  | zero => rfl
  | succ n => simp [frameSteps, coreStep_halted h, Option.isSome_iff_ne_none.mpr h]

/-- The early end of a frame is no other path: the steps left out stand still (R207, R212). -/
theorem frameSteps_succ {s t : State} (h : coreStep s = .next t) (n : Nat) :
    frameSteps (n + 1) s = frameSteps n t := by
  simp only [frameSteps, h]
  split
  · next halted => exact (frameSteps_halted (Option.isSome_iff_ne_none.mp halted) n).symm
  · rfl

/-- A scheduled `Step` moves the core and is taken off the schedule. -/
theorem step_scheduled_coreStep {s t : State} (h : coreStep s = .next t) (rest : List Transition) :
    step (s.setSchedule (.coreStep :: rest)) = .next (t.setSchedule rest) := by
  change coreStep (s.setSchedule rest) = _
  rw [scheduleDoesNotReachCore s rest, h]
  rfl

/-- The `Step`s of a frame answer with a state from which the run over the rest of the schedule goes on. -/
theorem frameSteps_answers (n : Nat) (s : State) (hs : s.schedule = []) :
    ∃ t, frameSteps n s = .next t ∧ t.schedule = [] ∧ ∀ k rest,
      Host.Core.run Sys2Proof.core (k + n) (s.setSchedule (List.replicate n .coreStep ++ rest)) =
        Host.Core.run Sys2Proof.core k (t.setSchedule rest) := by
  induction n generalizing s with
  | zero => exact ⟨s, rfl, hs, fun _ _ => rfl⟩
  | succ n ih =>
    obtain ⟨u, hu⟩ := coreStep_answers s
    obtain ⟨t, ht, idle, goesOn⟩ := ih u ((coreStep_keeps_schedule hu).trans hs)
    refine ⟨t, (frameSteps_succ hu n).trans ht, idle, fun k rest => ?_⟩
    exact (run_succ_of_next (step_scheduled_coreStep hu _)).trans (goesOn k rest)

/-- Settles O55: after the `Step`s one transition is left, and the tick of a halted machine stands still too. -/
theorem frameIsRunOfItsSchedule : Obligations.FrameIsRunOfItsSchedule := by
  intro ticks s hs
  obtain ⟨t, ht, idle, goesOn⟩ := frameSteps_answers ticks.val s hs
  have tick : step (t.setSchedule [.timerTick]) = .next (timerTick t) := by
    change Host.Outcome.next (timerTick (t.setSchedule [])) = _
    rw [← idle]; rfl
  rw [Nat.add_comm]
  refine ((goesOn 1 [.timerTick]).trans (run_succ_of_next tick)).trans ?_
  change .next (timerTick t) = frame ticks s
  simp only [frame, ht]
  split
  · next halted => rw [timerTick_halted (Option.isSome_iff_ne_none.mp halted)]
  · rfl

/-! ## Many ticks and a long wait -/

/-- Settles O33: by induction on the number of ticks; each is one count down on the schedule without it. -/
theorem repeatedTicksStopAtZero : Obligations.RepeatedTicksStopAtZero := by
  intro n
  induction n with
  | zero => exact fun s _ _ => ⟨s, rfl, rfl, rfl, Unchanged.refl _ s⟩
  | succ n ih =>
    intro s running hs
    let u := ((s.setSchedule (List.replicate n .timerTick)).setDt (countDown s.dt)).setSt (countDown s.st)
    have tick : step s = .next u := by
      rw [scheduledTransitionMovesFirst s .timerTick (List.replicate n .timerTick) hs]
      exact congrArg Host.Outcome.next (timerTick_running (s := s.setSchedule _) running)
    obtain ⟨t, ht, hdt, hst, frame⟩ := ih u running rfl
    refine ⟨t, (run_succ_of_next tick).trans ht, ?dt, ?st, ?frame⟩
    case dt => rw [hdt, setSt_dt, setDt_dt, countDown_toNat]; omega
    case st => rw [hst, setSt_st, countDown_toNat]; omega
    case frame =>
      have first : Unchanged ([.schedule] ++ [.dt] ++ [.st]) s u :=
        ((unchanged_setSchedule s _).trans (unchanged_setDt _ _)).trans (unchanged_setSt _ _)
      exact (first.trans frame).mono (by simp)

/-- Advancing `PC` and going back is no change (R153). -/
theorem advancePc_rewind (s : State) : s.advancePc.setPc (s.advancePc.pc - 2#16) = s := by
  rw [advancePc_eq, setPc_pc, BitVec.add_sub_cancel]
  rfl

theorem run_of_step_self {s : State} (h : step s = .next s) (n : Nat) :
    Host.Core.run Sys2Proof.core n s = .next s := by
  induction n with
  | zero => rfl
  | succ n ih => exact (run_succ_of_next h).trans ih

/-- A state that can fetch runs the instruction its word decodes to. -/
theorem step_of_canFetch {s : State} {i : Instr} (h : CanFetch s) (word : decodeWord (fetchWord s) = .ok i) :
    step s = exec i s.advancePc := by
  obtain ⟨idle, running, aligned, inside⟩ := h
  rw [step_of_empty_schedule idle]
  exact coreStep_decoded running ((fetchFault_none_iff s).mpr ⟨aligned, inside⟩) word

/-- Settles O31: a waiting `Step` gives the state back; a release is latched, and the next `Step` takes it. -/
theorem keyWaitSpinsUntilRelease : Obligations.KeyWaitSpinsUntilRelease := by
  intro x s fetch word waits noKey
  constructor
  · have spin : step s = .next s := by
      rw [step_of_canFetch fetch word, exec_ldVxK_waits (s := s.advancePc) waits noKey, advancePc_rewind]
    exact run_of_step_self spin
  · intro k
    have latched := keyRelease_waiting fetch.2.1 waits k
    have taken := (step_of_canFetch (s := s.setWaitKey true (some k)) fetch word).trans
      (exec_ldVxK_takes (k := k) rfl rfl)
    exact ⟨_, _, congrArg Host.Outcome.next latched, taken, toNat_takenKey _ x k, rfl, rfl, rfl⟩

/-! ## One step -/

/-- Settles O8: the byte decoder on the two bytes at `PC` is the word decoder on the fetched word. -/
theorem stepRunsDecodedInstruction : Obligations.StepRunsDecodedInstruction :=
  fun _ _ fetch bytes => step_of_canFetch fetch (decode_eq_ok_iff.mp bytes)

/-- Settles O9: the two bytes at `PC` make the fetched word. -/
theorem stepOnInvalidWordFaults : Obligations.StepOnInvalidWordFaults := by
  intro s w ⟨idle, running, aligned, inside⟩ bytes invalid
  obtain rfl : w = fetchWord s := BitVec.eq_of_toNat_eq (bytes.trans (wordOfBytes_toNat _ _).symm)
  have fetched := (fetchFault_none_iff s).mpr ⟨aligned, inside⟩
  refine ⟨_, (step_of_empty_schedule idle).trans (coreStep_invalid running fetched invalid), rfl, rfl, ?_⟩
  exact (unchanged_setPc s _).trans (unchanged_setFault _ _)

/-- Settles O10: the alignment test comes first, and a fetch that faults advances nothing. -/
theorem fetchFaults : Obligations.FetchFaults := by
  intro s idle running
  have faults {f : Fault} (h : fetchFault? s = some f) :
      ∃ t, step s = .next t ∧ t.fault = some f ∧ Unchanged [.fault] s t :=
    ⟨_, (step_of_empty_schedule idle).trans (coreStep_fetchFault running h), rfl, unchanged_setFault s f⟩
  have bit : s.pc.getLsbD 0 = decide (s.pc.toNat % 2 = 1) := by rw [BitVec.getLsbD, Nat.testBit_zero]
  refine ⟨fun odd => faults ?_, fun even beyond => faults ?_⟩
  · simp only [fetchFault?, bit, odd, decide_true, if_true]
  · simp only [fetchFault?, bit, even, beyond, Nat.zero_ne_one, decide_false, Bool.false_eq_true, if_false, if_true]

theorem placeWord_pc (w : Word) (s : State) : (placeWord w s).pc = s.pc := writeBytes_pc s _ _

/-- The word placed at `PC` is the word fetched (R54). -/
theorem fetchWord_placeWord (w : Word) {s : State} (inside : s.pc.toNat ≤ 0xFFE) :
    fetchWord (placeWord w s) = w := by
  have byte (a : Nat) : (placeWord w s).readByte a =
      if s.pc.toNat ≤ a ∧ a < s.pc.toNat + 2 then [highByte w, lowByte w].getD (a - s.pc.toNat) 0#8
      else s.readByte a :=
    readByte_writeBytes s s.pc.toNat [highByte w, lowByte w] a (by simp only [Config.memSize, List.length]; omega)
  rw [fetchWord, placeWord_pc, byte, byte]
  simp

theorem withFetchWord_toNat (w : Word) (s : State) : s.withFetchWord 16 w.toNat = placeWord w s := by
  rw [State.withFetchWord, Nat.mod_eq_of_lt w.isLt, BitVec.ofNat_toNat, BitVec.setWidth_eq]

/-- Settles O13: the two bytes stored at `PC` are those the next step fetches, and the encoder's word decodes back. -/
theorem placedInstructionRunsNext : Obligations.PlacedInstructionRunsNext := by
  intro s i aligned inside
  rw [withFetchWord_toNat]
  have pc := placeWord_pc (encode i) s
  have fetch : CanFetch (placeWord (encode i) s) :=
    ⟨rfl, rfl, (congrArg (·.toNat % 2) pc).trans aligned, (congrArg BitVec.toNat pc).trans_le inside⟩
  have word := (congrArg decodeWord (fetchWord_placeWord (encode i) inside)).trans (decodeWord_encode i)
  rw [step_of_canFetch fetch word, advancePc_eq, pc]

end Sys2Proof.Machine
end

section
/-!
PROOF. Loads, arithmetic, shifts and the random byte (R102 to R104, R108 to R113): the results and flags as `BitVec`
writes them, then one write of the state each.
-/

namespace Sys2Proof.Machine

/-! ## The arithmetic of R101 -/

theorem add8_eq (a b : Byte) : add8 a b = a + b := by
  apply BitVec.eq_of_toNat_eq
  rw [add8, BitVec.toNat_ofNat, BitVec.toNat_add]

theorem sub8_eq (a b : Byte) : sub8 a b = a - b := by
  have := a.isLt
  have := b.isLt
  apply BitVec.eq_of_toNat_eq
  rw [sub8, BitVec.toNat_sub]
  split <;> (rw [BitVec.toNat_ofNat]; omega)

theorem shiftRight8_eq (b : Byte) : shiftRight8 b = b >>> 1 := by
  apply BitVec.eq_of_toNat_eq
  rw [shiftRight8, BitVec.toNat_ofNat, BitVec.toNat_ushiftRight, Nat.shiftRight_eq_div_pow]
  omega

theorem shiftLeft8_eq (b : Byte) : shiftLeft8 b = b <<< 1 := by
  apply BitVec.eq_of_toNat_eq
  rw [shiftLeft8, BitVec.toNat_ofNat, BitVec.toNat_shiftLeft, Nat.shiftLeft_eq, Nat.pow_one]

theorem flagByte_carry (a b : Byte) :
    flagByte (carry a b) = if 255 < a.toNat + b.toNat then 1#8 else 0#8 := by
  simp only [flagByte, carry, decide_eq_true_eq]

theorem flagByte_noBorrow (a b : Byte) : flagByte (noBorrow a b) = if b ≤ a then 1#8 else 0#8 := by
  simp only [flagByte, noBorrow, decide_eq_true_eq, BitVec.le_def]

theorem flagByte_shiftedOutLow : ∀ b : Byte, flagByte (shiftedOutLow b) = b &&& 1#8 := by decide

theorem flagByte_shiftedOutHigh : ∀ b : Byte, flagByte (shiftedOutHigh b) = b >>> 7 := by decide

/-! ## The statements -/

/-- Settles O15: each writes `V[x]` alone. -/
theorem loadsAndAddImmediate : Obligations.LoadsAndAddImmediate := by
  intro x y nn s
  have frame (b : Byte) : RegsUnchanged [x] s (s.setReg x b) ∧ Unchanged [.v] s (s.setReg x b) :=
    ⟨regsUnchanged_setReg s x b, unchanged_setReg s x b⟩
  refine ⟨⟨_, exec_ldImm x nn s, reg_setReg_same s x nn, frame nn⟩, ⟨_, exec_addImm x nn s, ?sum, frame _⟩,
    ⟨_, exec_ldReg x y s, reg_setReg_same s x _, frame _⟩⟩
  case sum => rw [reg_setReg_same, add8_eq, BitVec.toNat_add]

/-- What the five instructions with a result and a flag have in common: the state they leave has the result in `V[x]`
when `x` is not `VF`, the flag in `VF`, and nothing else changed (R100). -/
theorem resultThenFlag_spec {i : Instr} {s : State} {x : RegIx} {b result flag : Byte} {c : Bool}
    (h : exec i s = .next (s.setResultThenFlag x b c)) (hb : b = result) (hc : flagByte c = flag) :
    ∃ t, exec i s = .next t ∧ (x ≠ 0xF#4 → t.reg x = result) ∧ t.reg 0xF#4 = flag ∧
      RegsUnchanged [x, 0xF#4] s t ∧ Unchanged [.v] s t := by
  subst hb hc
  exact ⟨_, h, (reg_setResultThenFlag s x b c).2, (reg_setResultThenFlag s x b c).1,
    (unchanged_setResultThenFlag s x b c).2, (unchanged_setResultThenFlag s x b c).1⟩

/-- Settles O17: the sum and the carry, as a result and a flag. -/
theorem addWithCarryFlag : Obligations.AddWithCarryFlag :=
  fun x y s => resultThenFlag_spec (exec_addReg x y s) (add8_eq _ _) (flagByte_carry _ _)

/-- Settles O18: the difference and no-borrow, as a result and a flag. -/
theorem subtractWithNoBorrowFlag : Obligations.SubtractWithNoBorrowFlag :=
  fun x y s => ⟨resultThenFlag_spec (exec_subReg x y s) (sub8_eq _ _) (flagByte_noBorrow _ _),
    resultThenFlag_spec (exec_subn x y s) (sub8_eq _ _) (flagByte_noBorrow _ _)⟩

/-- Settles O19: the shifted byte and the bit shifted out, as a result and a flag. -/
theorem shiftsOfVyIntoVx : Obligations.ShiftsOfVyIntoVx :=
  fun x y s => ⟨resultThenFlag_spec (exec_shr x y s) (shiftRight8_eq _) (flagByte_shiftedOutLow _),
    resultThenFlag_spec (exec_shl x y s) (shiftLeft8_eq _) (flagByte_shiftedOutHigh _)⟩

/-- The two cases of the random port: a supplied byte is used up, or the counter of free values advances (R216). -/
theorem draw_cases (s : State) :
    (∃ b rest, s.rngQueue = b :: rest ∧ s.rngByte = b ∧ s.afterDraw.rngQueue = rest ∧
      s.afterDraw.draws = s.draws) ∨
    (s.rngQueue = [] ∧ s.rngByte = Config.rngByte s.draws ∧ s.afterDraw.rngQueue = [] ∧
      s.afterDraw.draws = s.draws + 1) := by
  cases hq : s.rngQueue with
  | nil => exact .inr (by simp [State.rngByte, State.afterDraw, hq])
  | cons b rest => exact .inl ⟨b, rest, by simp [State.rngByte, State.afterDraw, hq]⟩

/-- Settles O20: the draw is the head of the supplied bytes, or the free value of the counter. -/
theorem randomByteUnderMask : Obligations.RandomByteUnderMask := by
  intro x nn s
  let t := s.afterDraw.setReg x (s.rngByte &&& nn)
  have reg : t.reg x = s.rngByte &&& nn := reg_setReg_same _ x _
  refine ⟨t, exec_rnd x nn s, ?regs, ?frame, ?masked, ?port⟩
  case regs => exact fun r hr => (regsUnchanged_setReg _ x _ r hr).trans (afterDraw_reg s r)
  case frame => exact ((unchanged_afterDraw s).trans (unchanged_setReg _ x _)).mono (by simp)
  case masked =>
    intro k _ clear
    rw [reg, BitVec.getLsbD_and, clear, Bool.and_false]
  case port =>
    rcases draw_cases s with ⟨b, rest, queue, byte, left, same⟩ | ⟨queue, byte, left, counted⟩
    · exact .inl ⟨b, rest, queue, byte ▸ reg, left, same⟩
    · exact .inr ⟨queue, byte ▸ reg, left, counted⟩

end Sys2Proof.Machine
end

section
/-!
PROOF. Control transfer and the key instructions (R131 to R138, R153 to R156): jumps, calls and returns, skips, the key
wait.
-/

namespace Sys2Proof.Machine

/-! ## Jumps, calls and returns -/

/-- Settles O21: each jump is one write of `PC`. -/
theorem jumpTargets : Obligations.JumpTargets :=
  fun nnn s => ⟨⟨_, exec_jp nnn s, toNat_zextAddr nnn, unchanged_setPc s _⟩,
    ⟨_, exec_jpV0 nnn s, toNat_jumpSum nnn _, unchanged_setPc s _⟩⟩

/-- Settles O22: the two cases of a call. -/
theorem callPushesOrOverflows : Obligations.CallPushesOrOverflows := by
  intro nnn s
  refine ⟨fun room => ⟨_, exec_call_room room, rfl, ?depth, toNat_zextAddr nnn, ?frame⟩,
    fun full => ⟨_, exec_call_full full, rfl, unchanged_setFault s _⟩⟩
  case depth => exact List.length_append
  case frame => exact (unchanged_setStack s _).trans (unchanged_setPc _ _)

/-- Settles O23: the two cases of a return. -/
theorem returnPopsOrUnderflows : Obligations.ReturnPopsOrUnderflows := by
  intro s
  refine ⟨fun l a last => ⟨_, exec_ret_last last, rfl, rfl, ?depth, ?frame⟩,
    fun empty => ⟨_, exec_ret_empty (List.length_eq_zero_iff.mp empty), rfl, unchanged_setFault s _⟩⟩
  case depth => exact (congrArg List.length last).trans List.length_append |>.symm
  case frame => exact (unchanged_setStack s _).trans (unchanged_setPc _ _)

/-- Settles O24: the entry that the call pushed is the last one, and the return takes it. -/
theorem callThenReturnResumes : Obligations.CallThenReturnResumes :=
  fun _ _ room => ⟨_, exec_call_room room, fun _ stack => ⟨_, exec_ret_last stack, rfl, rfl, rfl⟩⟩

/-- Calls that fit the stack push their advanced `PC`s in order. -/
theorem callChain_pushes (calls : List (Word × Addr12)) (s : State)
    (fits : s.sp + calls.length ≤ s.stackDepth.val) :
    ∃ t, callChain calls s = .next t ∧ t.stack = s.stack ++ calls.map Prod.fst ∧ t.fault = s.fault ∧
      t.stackDepth = s.stackDepth := by
  induction calls generalizing s with
  | nil => exact ⟨s, rfl, (List.append_nil _).symm, rfl, rfl⟩
  | cons call rest ih =>
    obtain ⟨a, nnn⟩ := call
    rw [List.length_cons] at fits
    let u := ((s.setPc a).push a).setPc (zextAddr nnn)
    have called : exec (.call nnn) (s.setPc a) = .next u :=
      exec_call_room (s := s.setPc a) (show s.sp < s.stackDepth.val by omega)
    have depth : u.sp = s.sp + 1 := List.length_append
    obtain ⟨t, ht, stack, fault, same⟩ := ih u (show u.sp + rest.length ≤ s.stackDepth.val by omega)
    refine ⟨t, ?runs, stack.trans ?pushed, fault, same⟩
    case runs => simpa only [callChain, called] using ht
    case pushed => exact List.append_assoc s.stack [a] _

/-- As many returns as there are entries in `l` take them from the top down. -/
theorem returnChain_pops (l : List Word) {base : List Word} {s : State} (running : s.fault = none)
    (stack : s.stack = base ++ l.reverse) :
    ∃ u, returnChain l.length s = some (l, u) ∧ u.stack = base ∧ u.fault = none := by
  induction l generalizing s with
  | nil => exact ⟨s, rfl, by simpa using stack, running⟩
  | cons a rest ih =>
    rw [List.reverse_cons, ← List.append_assoc] at stack
    obtain ⟨u, hu, base, fault⟩ := ih (s := (s.setStack (base ++ rest.reverse)).setPc a) running rfl
    refine ⟨u, ?_, base, fault⟩
    simp [returnChain, exec_ret_last stack, running, hu]

/-- Settles O25: the calls push their addresses on top of the stack, and the returns take them from the top. -/
theorem nestedCallsReturnInReverse : Obligations.NestedCallsReturnInReverse := by
  intro calls s running fits
  obtain ⟨t, ht, stack, fault, depth⟩ := callChain_pushes calls s fits
  refine ⟨t, ht, ?returns, fun filled nnn => ?overflows⟩
  case returns =>
    have resumed := returnChain_pops (calls.map Prod.fst).reverse (fault.trans running)
      (base := s.stack) (by rw [stack, List.reverse_reverse])
    rwa [List.length_reverse, List.length_map] at resumed
  case overflows =>
    refine ⟨_, exec_call_full ?full, rfl, rfl⟩
    have count : t.sp = s.sp + calls.length := by
      rw [State.sp, stack, List.length_append, List.length_map, State.sp]
    rw [depth, ← filled, count]

/-! ## Skips -/

/-- Settles O27: each instruction is a skip, and two bytes are equal exactly when their numbers are. -/
theorem skipsOnRegisters : Obligations.SkipsOnRegisters := by
  intro x y s
  refine ⟨⟨_, exec_seReg x y s, ?equal, unchanged_skipIf s _⟩,
    ⟨_, exec_sneReg x y s, ?differs, unchanged_skipIf s _⟩⟩
  case equal => simp only [skipIf_pc, beq_iff_eq, BitVec.toNat_inj]
  case differs => simp only [skipIf_pc, bne_iff_ne, ite_not, BitVec.toNat_inj]

/-- A key is held when the value names one and its bit of the level is 1 (R156). -/
theorem keyHeld_iff (s : State) (b : Byte) :
    s.keyHeld b = true ↔ b.toNat ≤ 15 ∧ s.keysHeld.getLsbD b.toNat = true := by
  unfold State.keyHeld
  split <;> simp [*]

/-- Settles O29: the two are skips on the same query and on its negation. -/
theorem keySkips : Obligations.KeySkips := by
  intro x s
  refine ⟨⟨_, exec_skp x s, unchanged_skipIf s _, ?held⟩, ⟨_, exec_sknp x s, unchanged_skipIf s _, ?free⟩⟩
  case held => simp only [skipIf_pc, keyHeld_iff]
  case free => simp only [skipIf_pc, ← keyHeld_iff, Bool.not_eq_true', ← Bool.not_eq_true, ite_not]

/-! ## The key wait -/

/-- Settles O30: the three cases of the key wait. -/
theorem keyWaitProtocol : Obligations.KeyWaitProtocol := by
  intro x s
  refine ⟨fun idle => ⟨_, exec_ldVxK_begins idle, rfl, rfl, rfl, ?begins⟩,
    fun waits noKey => ⟨_, exec_ldVxK_waits waits noKey, rfl, unchanged_setPc s _⟩,
    fun k waits key => ⟨_, exec_ldVxK_takes waits key, ?code, rfl, rfl, ?regs, ?takes⟩⟩
  case begins => exact (unchanged_setWaitKey s _ _).trans (unchanged_setPc _ _)
  case code => exact toNat_takenKey s x k
  case regs => exact regsUnchanged_setReg s x _
  case takes => exact (unchanged_setReg s x _).trans (unchanged_setWaitKey _ _ _)

end Sys2Proof.Machine
end

section
/-!
PROOF. Reset, timers and key events (R35, R211, R214, R215, R240, R242).
-/

namespace Sys2Proof.Machine

/-! ## Reset -/

/-- Every address above the font reads as zero where nothing is written (R35). -/
theorem initialByte_above_font {a : Nat} (h : 0x50 ≤ a) : initialByte a = 0#8 := by
  have beyond : font.length ≤ a - Config.fontBase := h
  unfold initialByte
  rw [if_pos (show Config.fontBase ≤ a from Nat.zero_le a), List.getD_eq_default font _ beyond]

/-- Registers that were all set to zero read as zero. -/
theorem reg_of_zeros {s : State} (h : s.v = Vector.replicate 16 0x00#8) (r : RegIx) : s.reg r = 0#8 := by
  simp only [State.reg, h, Vector.getElem_replicate]

/-- Settles O1: one field after another of the reset state. -/
theorem resetStateValues : Obligations.ResetStateValues :=
  ⟨reg_of_zeros rfl, rfl, rfl, rfl, rfl, rfl, pixel_blank, rfl, rfl, rfl, by decide, by decide,
    fun _ => initialByte_above_font⟩

/-- Settles O2: the image is one run of stored bytes on the cleared state. -/
theorem resetLoadsImage : Obligations.ResetLoadsImage := by
  intro image s fits
  let t := (clearForReset s).writeBytes Config.programBase image
  have accepted : fire (.reset image) s = .next t := by
    rcases resetWith_cases image s with ⟨-, h⟩ | ⟨long, -⟩
    · exact h
    · omega
  have byte (a : Nat) : t.readByte a =
      if 0x200 ≤ a ∧ a < 0x200 + image.length then image.getD (a - 0x200) 0#8 else State.reset.readByte a :=
    readByte_writeBytes (clearForReset s) _ image a (by simp only [Config.programBase, Config.memSize]; omega)
  refine ⟨t, accepted, fun k hk => ?inside, fun a ha => ?outside, reg_of_zeros (writeBytes_v _ _ _),
    writeBytes_i _ _ _, writeBytes_pc _ _ _, writeBytes_dt _ _ _, writeBytes_st _ _ _, writeBytes_stack _ _ _,
    fun x y => ?dark, writeBytes_wait _ _ _, writeBytes_key _ _ _, writeBytes_fault _ _ _,
    writeBytes_keysHeld _ _ _, writeBytes_rngQueue _ _ _, writeBytes_draws _ _ _, writeBytes_stackDepth _ _ _,
    writeBytes_schedule _ _ _⟩
  case inside =>
    rw [byte, if_pos (by omega), Nat.add_sub_cancel_left, List.getD_eq_getElem _ _ hk]
  case outside => rw [byte, if_neg (by omega)]
  case dark =>
    rw [State.pixel, writeBytes_disp]
    exact pixel_blank x y

/-- Settles O3: the other case of a reset. -/
theorem oversizedImageRefused : Obligations.OversizedImageRefused := by
  intro image s long
  rcases resetWith_cases image s with ⟨fits, -⟩ | ⟨-, h⟩
  · omega
  · exact h

/-! ## Timers and keys -/

/-- Settles O32: one count of each timer, or nothing while halted. -/
theorem timerTickCountsDown : Obligations.TimerTickCountsDown := by
  intro s
  refine ⟨fun running => ?running, fun halted => congrArg _ (timerTick_halted halted)⟩
  exact ⟨_, congrArg Host.Outcome.next (timerTick_running running), countDown_toNat s.dt, countDown_toNat s.st,
    (unchanged_setDt s _).trans (unchanged_setSt _ _)⟩

theorem unchanged_withKeysHeld (s : State) (held : BitVec 16) : Unchanged [.keysHeld] s (s.withKeysHeld held) := by
  intro f hf
  cases f <;> simp [Field.same, State.withKeysHeld, State.reg, State.readByte] at hf ⊢

/-- Settles O34: a release is latched in the one case and dropped in the other; the level is written in any case. -/
theorem keyEvents : Obligations.KeyEvents := by
  intro s k held running
  refine ⟨fun waits => ?latched, fun idle => ?dropped, ?level⟩
  case latched =>
    refine ⟨_, congrArg Host.Outcome.next (keyRelease_waiting running waits k), rfl, fun f hf => ?_⟩
    rcases eq_or_ne f .wait with rfl | other
    · exact waits.symm
    · exact unchanged_setWaitKey s true (some k) f (by simp_all)
  case dropped =>
    rcases keyRelease_cases k s with ⟨-, waits, -⟩ | ⟨-, h⟩
    · exact absurd (waits.symm.trans idle) Bool.noConfusion
    · exact congrArg _ h
  case level =>
    rcases presentKeys_cases held s with ⟨-, h⟩ | ⟨halted, -⟩
    · exact ⟨_, congrArg Host.Outcome.next h, rfl, unchanged_withKeysHeld s held⟩
    · exact absurd running halted

end Sys2Proof.Machine
end

section
/-!
PROOF. The index register and memory (R53, R171 to R175, R204): stored digits, saved and restored registers, ranges that
pass 0xFFF, and the canonical form of memory.
-/

namespace Sys2Proof.Machine

/-- Settles O36: each is one write of `I`. -/
theorem indexArithmetic : Obligations.IndexArithmetic := by
  intro x s
  refine ⟨⟨_, exec_addI x s, BitVec.toNat_ofNat _ _, unchanged_setI s _⟩,
    ⟨_, exec_ldF x s, ?glyph, unchanged_setI s _⟩⟩
  case glyph =>
    have := (s.reg x).isLt
    rw [setI_i, BitVec.toNat_ofNat, Config.fontBase, Config.glyphStride]
    omega

/-- Settles O37: the three stored bytes are the quotients and remainders of the value. -/
theorem storeDecimalDigits : Obligations.StoreDecimalDigits := by
  intro x s inside
  let t := s.writeBytes s.i.toNat (bcdDigits (s.reg x))
  have byte (a : Nat) : t.readByte a = if s.i.toNat ≤ a ∧ a < s.i.toNat + 3
      then (bcdDigits (s.reg x)).getD (a - s.i.toNat) 0#8 else s.readByte a :=
    readByte_writeBytes s _ (bcdDigits (s.reg x)) a (by simp only [bcdDigits_length, Config.memSize]; omega)
  have value := (s.reg x).isLt
  have hundreds : (t.readByte s.i.toNat).toNat = (s.reg x).toNat / 100 := by
    rw [byte, if_pos (by omega)]
    simp [bcdDigits]
    omega
  have tens : (t.readByte (s.i.toNat + 1)).toNat = (s.reg x).toNat / 10 % 10 := by
    rw [byte, if_pos (by omega)]
    simp [bcdDigits]
    omega
  have ones : (t.readByte (s.i.toNat + 2)).toNat = (s.reg x).toNat % 10 := by
    rw [byte, if_pos (by omega)]
    simp [bcdDigits]
    omega
  refine ⟨t, exec_ldB_ok inside, ?_, ?_, ?_, ?_, fun a ha => ?_, unchanged_writeBytes s _ _⟩
  · omega
  · omega
  · omega
  · omega
  · rw [byte, if_neg (by omega)]

/-! ## Saved and restored registers -/

section Save
variable {x : RegIx} {s : State}

/-- `I` moves past a range that is inside memory without a wrap. -/
theorem toNat_advancedI (inside : s.i.toNat + x.toNat ≤ 0xFFF) :
    (BitVec.ofNat 16 (s.i.toNat + (x.toNat + 1)) : Word).toNat = s.i.toNat + x.toNat + 1 := by
  rw [BitVec.toNat_ofNat]
  omega

theorem readByte_saved (inside : s.i.toNat + x.toNat ≤ 0xFFF) (a : Nat) :
    (s.writeBytes s.i.toNat (s.firstRegs (x.toNat + 1))).readByte a =
      if s.i.toNat ≤ a ∧ a ≤ s.i.toNat + x.toNat then s.reg (BitVec.ofNat 4 (a - s.i.toNat))
      else s.readByte a := by
  rw [readByte_writeBytes _ _ _ _ (by rw [firstRegs_length, Config.memSize]; omega), firstRegs_length]
  by_cases h : s.i.toNat ≤ a ∧ a ≤ s.i.toNat + x.toNat
  · rw [if_pos h, if_pos (by omega), firstRegs_getD s (by omega)]
  · rw [if_neg h, if_neg (by omega)]

/-- Byte `I + k` of the saved memory is `V[k]`. -/
theorem readByte_saved_reg (inside : s.i.toNat + x.toNat ≤ 0xFFF) {k : RegIx} (hk : k ≤ x) :
    (s.writeBytes s.i.toNat (s.firstRegs (x.toNat + 1))).readByte (s.i.toNat + k.toNat) = s.reg k := by
  rw [BitVec.le_def] at hk
  rw [readByte_saved inside, if_pos (by omega), Nat.add_sub_cancel_left, BitVec.ofNat_toNat, BitVec.setWidth_eq]

theorem reg_restored (k : RegIx) : (s.loadRegs (x.toNat + 1)).reg k =
    if k ≤ x then s.readByte (s.i.toNat + k.toNat) else s.reg k := by
  rw [loadRegs_reg s (Nat.succ_le_of_lt x.isLt)]
  simp only [Nat.lt_succ_iff, BitVec.le_def, State.ea]

end Save

/-- Settles O38: the bytes stored are the first registers. -/
theorem saveRegisters : Obligations.SaveRegisters := by
  intro x s inside
  refine ⟨_, exec_saveRegs_ok inside, fun k hk => readByte_saved_reg inside hk, fun a ha => ?outside,
    toNat_advancedI inside, ?frame⟩
  case outside => rw [setI_readByte, readByte_saved inside, if_neg (by omega)]
  case frame => exact (unchanged_writeBytes s _ _).trans (unchanged_setI _ _)

/-- Settles O39: the registers up to `x` come from memory, the others stay. -/
theorem restoreRegisters : Obligations.RestoreRegisters := by
  intro x s inside
  refine ⟨_, exec_restoreRegs_ok inside, fun k hk => ?loaded, fun k hk => ?kept, toNat_advancedI inside, ?frame⟩
  case loaded => rw [setI_reg, reg_restored, if_pos hk]
  case kept => rw [setI_reg, reg_restored, if_neg (BitVec.not_le.mpr hk)]
  case frame => exact (unchanged_loadRegs s _).trans (unchanged_setI _ _)

/-- Settles O40: the restore reads the bytes that the save stored, from the same `I`. -/
theorem saveThenRestoreRoundTrip : Obligations.SaveThenRestoreRoundTrip := by
  intro x s inside
  refine ⟨_, exec_saveRegs_ok inside, toNat_advancedI inside, fun u hi bytes => ?_⟩
  have inside' : u.i.toNat + x.toNat ≤ 0xFFF := hi ▸ inside
  refine ⟨_, exec_restoreRegs_ok inside', ?index, fun k hk => ?value⟩
  case index => rw [setI_i, setI_i, hi]
  case value =>
    rw [setI_reg, reg_restored, if_pos hk, bytes, setI_readByte, hi, readByte_saved_reg inside hk]

/-! ## A range that passes 0xFFF -/

/-- Settles O41: the length is that of the instruction's data range. -/
theorem dataRangeFaults : Obligations.DataRangeFaults := by
  intro i len s range nonempty beyond
  have length : len = dataLen i := by
    rcases range with ⟨x, rfl, rfl⟩ | ⟨x, rfl | rfl, rfl⟩ | ⟨x, y, n, rfl, rfl⟩ <;> rfl
  subst length
  exact ⟨_, _, exec_dataRange_fault nonempty beyond, rfl, lowestOutOfRange_toNat s.i, unchanged_setFault s _⟩

/-! ## The canonical form -/

theorem Memory.wf_tail {c : Host.Cell} {m : Memory} (h : Memory.wf (c :: m)) : Memory.wf m :=
  ⟨(List.pairwise_cons.mp h.1).2, fun d hd => h.2 d (List.mem_cons_of_mem c hd)⟩

/-- Below every listed address a memory reads as after reset. -/
theorem Memory.read_below {m : Memory} {a : Nat} (h : ∀ c ∈ m, a < c.1) : m.read a = initialByte a := by
  induction m with
  | nil => rfl
  | cons c rest ih =>
    rw [Memory.read, if_neg (h c List.mem_cons_self).ne']
    exact ih fun d hd => h d (List.mem_cons_of_mem c hd)

/-- In canonical form the tail reads as after reset at the head's address. -/
theorem Memory.read_tail {c : Host.Cell} {m : Memory} (h : Memory.wf (c :: m)) : m.read c.1 = initialByte c.1 :=
  Memory.read_below (List.pairwise_cons.mp h.1).1

/-- A canonical memory that lists a cell does not read as the other does where all of the other lies above. -/
theorem Memory.ne_of_below {c : Host.Cell} {m m' : Memory} (h : Memory.wf (c :: m)) (above : ∀ d ∈ m', c.1 < d.1) :
    ¬ ∀ a, Memory.read (c :: m) a = Memory.read m' a := by
  intro same
  have head : c.2 = initialByte c.1 := by
    rw [← Memory.read_below above, ← same, Memory.read, if_pos rfl]
  exact (h.2 c List.mem_cons_self).2 head

/-- Settles O42: by induction on both lists; equal reads leave the two heads no choice. -/
theorem canonicalMemoriesAreEqual : Obligations.CanonicalMemoriesAreEqual := by
  intro m₁
  induction m₁ with
  | nil =>
    intro m₂ _ h₂ same
    cases m₂ with
    | nil => rfl
    | cons d rest => exact absurd (fun a => (same a).symm) (Memory.ne_of_below h₂ (by simp))
  | cons c rest₁ ih =>
    intro m₂ h₁ h₂ same
    cases m₂ with
    | nil => exact absurd same (Memory.ne_of_below h₁ (by simp))
    | cons d rest₂ =>
      have above₁ := (List.pairwise_cons.mp h₁.1).1
      have above₂ := (List.pairwise_cons.mp h₂.1).1
      rcases Nat.lt_trichotomy c.1 d.1 with lt | addr | gt
      · refine absurd same (Memory.ne_of_below h₁ fun e he => ?_)
        rcases List.mem_cons.mp he with rfl | he
        · exact lt
        · exact lt.trans (above₂ e he)
      · have cell : c = d := Prod.ext addr (by simpa [Memory.read, addr] using same d.1)
        subst cell
        refine congrArg _ (ih rest₂ (Memory.wf_tail h₁) (Memory.wf_tail h₂) fun a => ?_)
        rcases eq_or_ne c.1 a with rfl | other
        · rw [Memory.read_tail h₁, Memory.read_tail h₂]
        · simpa [Memory.read, other] using same a
      · refine absurd (fun a => (same a).symm) (Memory.ne_of_below h₂ fun e he => ?_)
        rcases List.mem_cons.mp he with rfl | he
        · exact gt
        · exact gt.trans (above₁ e he)

end Sys2Proof.Machine
end

section
/-!
PROOF. The sprite blitter (R192, R193): which pixels a fold of it toggles and when it collides, for one pixel, one row
and the whole sprite.
-/

namespace Sys2Proof.Machine

/-! ## Toggled pixels -/

/-- From `a` to `b` exactly the pixels in `C` were toggled, and the collision has noted those of them that were on. -/
structure Toggles (C : Nat → Nat → Prop) (a b : Blit) : Prop where
  covered : ∀ p q, C p q → Display.pixel b.disp p q = !Display.pixel a.disp p q
  uncovered : ∀ p q, ¬ C p q → Display.pixel b.disp p q = Display.pixel a.disp p q
  collision : b.collision = true ↔ a.collision = true ∨ ∃ p q, C p q ∧ Display.pixel a.disp p q = true

namespace Toggles
variable {C D : Nat → Nat → Prop} {a b c : Blit}

theorem of_none (h : ∀ p q, ¬ C p q) : Toggles C a a where
  covered := fun p q hc => absurd hc (h p q)
  uncovered := fun _ _ _ => rfl
  collision := ⟨.inl, fun e => e.resolve_right fun ⟨p, q, hc, _⟩ => h p q hc⟩

theorem congr (h : Toggles C a b) (same : ∀ p q, D p q ↔ C p q) : Toggles D a b := by
  obtain rfl : D = C := funext fun p => funext fun q => propext (same p q)
  exact h

/-- Two blits of disjoint sets of pixels: the second one sees its pixels as they were before the first. -/
theorem trans (h : Toggles C a b) (h' : Toggles D b c) (disjoint : ∀ p q, C p q → ¬ D p q) :
    Toggles (fun p q => C p q ∨ D p q) a c where
  covered := by
    rintro p q (hc | hd)
    · rw [h'.uncovered p q (disjoint p q hc), h.covered p q hc]
    · rw [h'.covered p q hd, h.uncovered p q fun hc => disjoint p q hc hd]
  uncovered := fun p q hn => by
    rw [h'.uncovered p q fun hd => hn (.inr hd), h.uncovered p q fun hc => hn (.inl hc)]
  collision := by
    have seen : (∃ p q, D p q ∧ Display.pixel b.disp p q = true) ↔
        ∃ p q, D p q ∧ Display.pixel a.disp p q = true :=
      exists_congr fun p => exists_congr fun q => and_congr_right fun hd => by
        rw [h.uncovered p q fun hc => disjoint p q hc hd]
    rw [h'.collision, h.collision, seen, or_assoc]
    simp only [or_and_right, exists_or]

/-- A fold whose steps toggle disjoint sets toggles their union. -/
theorem foldl {f : Blit → Nat → Blit} {S : Nat → Nat → Nat → Prop}
    (step : ∀ acc k, Toggles (S k) acc (f acc k))
    (disjoint : ∀ j k p q, S j p q → S k p q → j = k) (n : Nat) (acc : Blit) :
    Toggles (fun p q => ∃ k, k < n ∧ S k p q) acc ((List.range n).foldl f acc) := by
  induction n with
  | zero => exact of_none fun p q ⟨k, hk, _⟩ => absurd hk (Nat.not_lt_zero k)
  | succ n ih =>
    rw [List.range_succ, List.foldl_append]
    refine (ih.trans (step _ n) ?_).congr fun p q => ?_
    · rintro p q ⟨k, hk, hs⟩ hn
      exact hk.ne (disjoint k n p q hs hn)
    · constructor
      · rintro ⟨k, hk, hs⟩
        rcases Nat.lt_succ_iff_lt_or_eq.mp hk with lt | rfl
        · exact .inl ⟨k, lt, hs⟩
        · exact .inr hs
      · rintro (⟨k, hk, hs⟩ | hn)
        · exact ⟨k, Nat.lt_succ_of_lt hk, hs⟩
        · exact ⟨n, Nat.lt_succ_self n, hn⟩

end Toggles

/-! ## The blitter -/

/-- The pixel that column `c` of a sprite row covers, when it is on the surface and its bit is 1. -/
abbrev PixelCovers (b : Byte) (x0 yy c p q : Nat) : Prop :=
  p = x0 + c ∧ q = yy ∧ p < 64 ∧ spriteBit b c = true

theorem blitPixel_toggles (b : Byte) {x0 yy : Nat} (hy : yy < 32) (acc : Blit) (c : Nat) :
    Toggles (PixelCovers b x0 yy c) acc (blitPixel b x0 yy acc c) where
  covered := fun p q h => by
    rw [blitPixel_pixel b hy, decide_eq_true h, Bool.xor_true]
  uncovered := fun p q h => by
    rw [blitPixel_pixel b hy, decide_eq_false h, Bool.xor_false]
  collision := by
    unfold blitPixel
    split
    · next on =>
      simp only [Bool.or_eq_true]
      refine or_congr_right ⟨fun lit => ⟨_, _, ⟨rfl, rfl, by omega, on.2⟩, lit⟩, ?_⟩
      rintro ⟨p, q, ⟨rfl, rfl, -, -⟩, lit⟩
      exact lit
    · next off =>
      refine ⟨.inl, fun e => e.resolve_right ?_⟩
      rintro ⟨p, q, ⟨rfl, -, hp, bit⟩, -⟩
      exact off ⟨by omega, bit⟩

/-- The pixels that row `r` of a sprite covers; none below the bottom edge. -/
def RowCovers (row : Nat → Byte) (x0 y0 r p q : Nat) : Prop :=
  q < 32 ∧ ∃ c, c < 8 ∧ PixelCovers (row r) x0 (y0 + r) c p q

theorem blitRow_toggles (row : Nat → Byte) (x0 y0 : Nat) (acc : Blit) (r : Nat) :
    Toggles (RowCovers row x0 y0 r) acc (blitRow row x0 y0 acc r) := by
  unfold blitRow
  split
  · next inside =>
    have columns := Toggles.foldl (fun acc c => blitPixel_toggles (row r) (x0 := x0) (yy := y0 + r) (by omega) acc c)
      (fun j k p q hj hk => by have := hj.1; have := hk.1; omega) 8 acc
    refine columns.congr fun p q => and_iff_right_of_imp ?_
    rintro ⟨c, -, -, rfl, -, -⟩
    omega
  · next below =>
    refine Toggles.of_none fun p q => ?_
    rintro ⟨hq, c, -, -, rfl, -, -⟩
    omega

theorem blit_toggles (row : Nat → Byte) (n x0 y0 : Nat) (d : Display) :
    Toggles (fun p q => ∃ r, r < n ∧ RowCovers row x0 y0 r p q) ⟨d, false⟩ (blit row n x0 y0 d) := by
  refine Toggles.foldl (blitRow_toggles row x0 y0) ?_ n _
  rintro j k p q ⟨-, _, -, -, hj, -, -⟩ ⟨-, _, -, -, hk, -, -⟩
  omega

/-- The blit of `DRW` toggles the pixels of the surface that the sprite covers. -/
theorem spriteBlit_toggles (s : State) (x y : RegIx) (n : BitVec 4) :
    Toggles (fun p q => p < 64 ∧ q < 32 ∧ SpriteCovers s x y n p q) ⟨s.disp, false⟩ (s.spriteBlit x y n) := by
  refine (blit_toggles _ _ _ _ s.disp).congr fun p q => ⟨?_, ?_⟩
  · rintro ⟨hp, hq, r, c, hr, hc, hx, hy, bit⟩
    exact ⟨r, hr, hq, c, hc, hx, hy, hp, bit⟩
  · rintro ⟨r, hr, hq, c, hc, hx, hy, hp, bit⟩
    exact ⟨hp, hq, r, c, hr, hc, hx, hy, bit⟩

/-! ## `DRW` -/

/-- Settles O44: the blit toggles the covered pixels, and its collision is the flag. -/
theorem drawSpriteTogglesPixels : Obligations.DrawSpriteTogglesPixels := by
  intro x y n s inside
  have toggles := spriteBlit_toggles s x y n
  refine ⟨_, exec_drw_ok inside, fun xx yy hx hy => ⟨fun covers => ?_, fun free => ?_⟩, ?flag,
    regsUnchanged_setReg _ flagReg _, ?frame⟩
  · exact toggles.covered xx yy ⟨hx, hy, covers⟩
  · exact toggles.uncovered xx yy fun h => free h.2.2
  case flag =>
    rw [setFlag_eq, show (0xF#4 : RegIx) = flagReg from rfl, reg_setReg_same]
    cases hit : (s.spriteBlit x y n).collision with
    | true =>
      rcases toggles.collision.mp hit with impossible | ⟨p, q, ⟨hp, hq, covers⟩, lit⟩
      · cases impossible
      · exact .inl ⟨rfl, p, q, hp, hq, covers, lit⟩
    | false =>
      refine .inr ⟨rfl, fun xx yy hx hy covers => Bool.eq_false_iff.mpr fun lit => ?_⟩
      exact Bool.eq_false_iff.mp hit (toggles.collision.mpr (.inr ⟨xx, yy, ⟨hx, hy, covers⟩, lit⟩))
  case frame => exact ((unchanged_setDisp s _).trans (unchanged_setReg _ flagReg _)).mono (by simp)

/-- The pixels a sprite covers depend on the height, the two coordinates, `I` and memory only. -/
theorem spriteCovers_congr {s t : State} {x y : RegIx} {n : BitVec 4} (hx : t.reg x = s.reg x)
    (hy : t.reg y = s.reg y) (hi : t.i = s.i) (hm : ∀ a, t.readByte a = s.readByte a) (xx yy : Nat) :
    SpriteCovers t x y n xx yy ↔ SpriteCovers s x y n xx yy := by
  simp only [SpriteCovers, hx, hy, hi, hm]

/-- Settles O45: the second draw covers the same pixels, so that it toggles them back and collides with those that the
first one turned on. -/
theorem drawTwiceRestoresDisplay : Obligations.DrawTwiceRestoresDisplay := by
  intro x y n s t inside ht hx hy
  obtain ⟨t', ht', first, -, -, frame⟩ := drawSpriteTogglesPixels x y n s inside
  obtain rfl := exec_next_unique ht ht'
  have hi : t.i = s.i := frame .i (by simp)
  have same := spriteCovers_congr (n := n) hx hy hi (frame .mem (by simp))
  obtain ⟨u, hu, second, flag, -, -⟩ := drawSpriteTogglesPixels x y n t (by rw [hi]; exact inside)
  refine ⟨u, hu, display_ext fun p q hp hq => ?back, ?collides⟩
  case back =>
    by_cases covers : SpriteCovers s x y n p q
    · exact ((second p q hp hq).1 ((same p q).mpr covers)).trans
        (by rw [(first p q hp hq).1 covers, Bool.not_not]; rfl)
    · exact ((second p q hp hq).2 (mt (same p q).mp covers)).trans ((first p q hp hq).2 covers)
  case collides =>
    rcases flag with ⟨one, p, q, hp, hq, covers, lit⟩ | ⟨zero, dark⟩
    · refine iff_of_true one ⟨p, q, hp, hq, ?_, lit⟩
      have toggled := (first p q hp hq).1 ((same p q).mp covers)
      rw [lit] at toggled
      simpa using toggled
    · rw [zero]
      refine iff_of_false (by decide) ?_
      rintro ⟨p, q, hp, hq, off, on⟩
      by_cases covers : SpriteCovers s x y n p q
      · exact absurd ((dark p q hp hq ((same p q).mpr covers)).symm.trans on) Bool.noConfusion
      · exact absurd (off.symm.trans (((first p q hp hq).2 covers).symm.trans on)) Bool.noConfusion

end Sys2Proof.Machine
end
